-- ==== Sys2Proof/Word.lean ====
section
/-! DEFINITION. The widths the machine works with (00_scope.md R8, R10, R12): bytes, 16-bit words, 12-bit addresses and
4-bit fields. Every value is unsigned (R10). -/

namespace Sys2Proof

/-- One byte: a general register, a memory cell, a timer, an immediate `nn` (R8 `V_WIDTH`, `TIMER_WIDTH`; R93). -/
abbrev Byte := BitVec 8

/-- A 16-bit word: an instruction word, the program counter, the index register, a stack entry (R8). -/
abbrev Word := BitVec 16

/-- The 12-bit address field `nnn` of an instruction (R12, R91). -/
abbrev Addr12 := BitVec 12

/-- A 4-bit field of an instruction word: `op`, `x`, `y`, `n` (R91); also the index of a key notification (R289). -/
abbrev Nibble := BitVec 4

/-- The 4-bit index of a general register; every value names one of the 16 registers (R21, R24). -/
abbrev RegIdx := BitVec 4

/-- VF, the flag register, is `V[15]` (R12, R22). -/
abbrev vf : RegIdx := 0xF#4

end Sys2Proof
end

