-- ==== Sys2Proof/Syntax.lean ====
section
/-! DEFINITION. The instructions: one constructor for each of the 35 lines of the decode table (30_encoding.md R96), with the
operand fields the line names (R91, R92). SHR and SHL keep the `y` field the machine ignores (R97), so that a word and its
instruction determine each other. -/

namespace Sys2Proof

/-- The tagged instruction variant the decoder produces (R94), in the order of R96. -/
inductive Instr where
  /-- `0nnn` SYS nnn (R163). -/
  | sys (nnn : Addr12)
  /-- `00E0` CLS (R164). -/
  | cls
  /-- `00EE` RET (R165). -/
  | ret
  /-- `1nnn` JP nnn (R166). -/
  | jp (nnn : Addr12)
  /-- `2nnn` CALL nnn (R167). -/
  | call (nnn : Addr12)
  /-- `3xnn` SE Vx, nn (R168). -/
  | seImm (x : RegIdx) (nn : Byte)
  /-- `4xnn` SNE Vx, nn (R169). -/
  | sneImm (x : RegIdx) (nn : Byte)
  /-- `5xy0` SE Vx, Vy (R170). -/
  | seReg (x y : RegIdx)
  /-- `6xnn` LD Vx, nn (R202). -/
  | ldImm (x : RegIdx) (nn : Byte)
  /-- `7xnn` ADD Vx, nn (R204). -/
  | addImm (x : RegIdx) (nn : Byte)
  /-- `8xy0` LD Vx, Vy (R203). -/
  | ldReg (x y : RegIdx)
  /-- `8xy1` OR Vx, Vy (R208). -/
  | orReg (x y : RegIdx)
  /-- `8xy2` AND Vx, Vy (R209). -/
  | andReg (x y : RegIdx)
  /-- `8xy3` XOR Vx, Vy (R210). -/
  | xorReg (x y : RegIdx)
  /-- `8xy4` ADD Vx, Vy (R205). -/
  | addReg (x y : RegIdx)
  /-- `8xy5` SUB Vx, Vy (R206). -/
  | sub (x y : RegIdx)
  /-- `8xy6` SHR Vx; `y` is ignored (R211, R97). -/
  | shr (x y : RegIdx)
  /-- `8xy7` SUBN Vx, Vy (R207). -/
  | subn (x y : RegIdx)
  /-- `8xyE` SHL Vx; `y` is ignored (R212, R97). -/
  | shl (x y : RegIdx)
  /-- `9xy0` SNE Vx, Vy (R171). -/
  | sneReg (x y : RegIdx)
  /-- `Annn` LD I, nnn (R251). -/
  | ldI (nnn : Addr12)
  /-- `Bnnn` JP V0, nnn (R172). -/
  | jpV0 (nnn : Addr12)
  /-- `Cxnn` RND Vx, nn (R213). -/
  | rnd (x : RegIdx) (nn : Byte)
  /-- `Dxyn` DRW Vx, Vy, n (R285). -/
  | drw (x y : RegIdx) (n : Nibble)
  /-- `Ex9E` SKP Vx (R286). -/
  | skp (x : RegIdx)
  /-- `ExA1` SKNP Vx (R287). -/
  | sknp (x : RegIdx)
  /-- `Fx07` LD Vx, DT (R321). -/
  | ldVxDt (x : RegIdx)
  /-- `Fx0A` LD Vx, K (R288). -/
  | ldVxK (x : RegIdx)
  /-- `Fx15` LD DT, Vx (R320). -/
  | ldDtVx (x : RegIdx)
  /-- `Fx18` LD ST, Vx (R322). -/
  | ldStVx (x : RegIdx)
  /-- `Fx1E` ADD I, Vx (R252). -/
  | addI (x : RegIdx)
  /-- `Fx29` LD F, Vx (R253). -/
  | ldF (x : RegIdx)
  /-- `Fx33` LD B, Vx (R254). -/
  | ldB (x : RegIdx)
  /-- `Fx55` LD [I], Vx (R255). -/
  | ldMemVx (x : RegIdx)
  /-- `Fx65` LD Vx, [I] (R256). -/
  | ldVxMem (x : RegIdx)
deriving DecidableEq, Repr

/-- The instruction's mnemonic as spec/opcode_table.json spells it. -/
def Instr.mnemonic : Instr → String
  | .sys _ => "SYS"
  | .cls => "CLS"
  | .ret => "RET"
  | .jp _ => "JP"
  | .call _ => "CALL"
  | .seImm _ _ => "SE_Vx__nn"
  | .sneImm _ _ => "SNE_Vx__nn"
  | .seReg _ _ => "SE_Vx__Vy"
  | .ldImm _ _ => "LD_Vx__nn"
  | .addImm _ _ => "ADD_Vx__nn"
  | .ldReg _ _ => "LD_Vx__Vy"
  | .orReg _ _ => "OR_Vx__Vy"
  | .andReg _ _ => "AND_Vx__Vy"
  | .xorReg _ _ => "XOR_Vx__Vy"
  | .addReg _ _ => "ADD_Vx__Vy"
  | .sub _ _ => "SUB_Vx__Vy"
  | .shr _ _ => "SHR_Vx"
  | .subn _ _ => "SUBN_Vx__Vy"
  | .shl _ _ => "SHL_Vx"
  | .sneReg _ _ => "SNE_Vx__Vy"
  | .ldI _ => "LD_I__nnn"
  | .jpV0 _ => "JP_V0__nnn"
  | .rnd _ _ => "RND_Vx__nn"
  | .drw _ _ _ => "DRW_Vx__Vy__n"
  | .skp _ => "SKP_Vx"
  | .sknp _ => "SKNP_Vx"
  | .ldVxDt _ => "LD_Vx__DT"
  | .ldVxK _ => "LD_Vx__K"
  | .ldDtVx _ => "LD_DT__Vx"
  | .ldStVx _ => "LD_ST__Vx"
  | .addI _ => "ADD_I__Vx"
  | .ldF _ => "LD_F__Vx"
  | .ldB _ => "LD_B__Vx"
  | .ldMemVx _ => "LD__I___Vx"
  | .ldVxMem _ => "LD_Vx___I"

end Sys2Proof
end

