-- ==== Sys2Proof/Decode.lean ====
section
/-! DEFINITION. The decoder (30_encoding.md R90-R98), total on any word and on any bytes, rejecting by name; then the encoder,
written from the same patterns (R92, R96); then the opcode table as rows of match and mask. The field positions and all but
two of the encodings are the spec's own general knowledge (R91, R96; log entry 7). -/

namespace Sys2Proof

/-- `op`, bits 15:12 (R91). -/
def opField (w : Word) : Nibble := w.extractLsb' 12 4

/-- `x`, bits 11:8 (R91). -/
def xField (w : Word) : RegIdx := w.extractLsb' 8 4

/-- `y`, bits 7:4 (R91). -/
def yField (w : Word) : RegIdx := w.extractLsb' 4 4

/-- `n`, bits 3:0 (R91). -/
def nField (w : Word) : Nibble := w.extractLsb' 0 4

/-- `nn`, bits 7:0 (R91). -/
def nnField (w : Word) : Byte := w.extractLsb' 0 8

/-- `nnn`, bits 11:0 (R91). -/
def nnnField (w : Word) : Addr12 := w.extractLsb' 0 12

/-- Why the decoder rejects. -/
inductive Reject where
  /-- No line of R96 matches the word (R94, R98). -/
  | unknownOpcode (w : Word)
  /-- Fewer than the two bytes of an instruction word (R90). -/
  | tooShort
deriving DecidableEq, Repr

/-- The decoder on one word (R94): dispatch on `op`, then on the family's fixed sub-field (R95, R96). -/
def decode (w : Word) : Except Reject Instr :=
  let x := xField w
  let y := yField w
  let nn := nnField w
  let nnn := nnnField w
  match (opField w).toNat with
  | 0x0 =>
    if w = 0x00E0#16 then .ok .cls
    else if w = 0x00EE#16 then .ok .ret
    else .ok (.sys nnn)
  | 0x1 => .ok (.jp nnn)
  | 0x2 => .ok (.call nnn)
  | 0x3 => .ok (.seImm x nn)
  | 0x4 => .ok (.sneImm x nn)
  | 0x5 => if nField w = 0x0#4 then .ok (.seReg x y) else .error (.unknownOpcode w)
  | 0x6 => .ok (.ldImm x nn)
  | 0x7 => .ok (.addImm x nn)
  | 0x8 =>
    match (nField w).toNat with
    | 0x0 => .ok (.ldReg x y)
    | 0x1 => .ok (.orReg x y)
    | 0x2 => .ok (.andReg x y)
    | 0x3 => .ok (.xorReg x y)
    | 0x4 => .ok (.addReg x y)
    | 0x5 => .ok (.sub x y)
    | 0x6 => .ok (.shr x y)
    | 0x7 => .ok (.subn x y)
    | 0xE => .ok (.shl x y)
    | _ => .error (.unknownOpcode w)
  | 0x9 => if nField w = 0x0#4 then .ok (.sneReg x y) else .error (.unknownOpcode w)
  | 0xA => .ok (.ldI nnn)
  | 0xB => .ok (.jpV0 nnn)
  | 0xC => .ok (.rnd x nn)
  | 0xD => .ok (.drw x y (nField w))
  | 0xE =>
    match nn.toNat with
    | 0x9E => .ok (.skp x)
    | 0xA1 => .ok (.sknp x)
    | _ => .error (.unknownOpcode w)
  | _ =>
    match nn.toNat with
    | 0x07 => .ok (.ldVxDt x)
    | 0x0A => .ok (.ldVxK x)
    | 0x15 => .ok (.ldDtVx x)
    | 0x18 => .ok (.ldStVx x)
    | 0x1E => .ok (.addI x)
    | 0x29 => .ok (.ldF x)
    | 0x33 => .ok (.ldB x)
    | 0x55 => .ok (.ldMemVx x)
    | 0x65 => .ok (.ldVxMem x)
    | _ => .error (.unknownOpcode w)

/-- The word of two bytes as fetched: the byte at the lower address is bits 15:8 (R65). -/
def wordOfBytes (hi lo : Byte) : Word := hi ++ lo

/-- The high byte of a word, the one at the lower address (R65). -/
def highByte (w : Word) : Byte := w.extractLsb' 8 8

/-- The low byte of a word, the one at the higher address (R65). -/
def lowByte (w : Word) : Byte := w.extractLsb' 0 8

/-- The decoder on bytes: it always consumes exactly two (R90) and answers the rest. -/
def decodeBytes : List Byte → Except Reject (Instr × List Byte)
  | hi :: lo :: rest =>
    match decode (wordOfBytes hi lo) with
    | .ok i => .ok (i, rest)
    | .error r => .error r
  | _ => .error .tooShort

/-- Format `XY` and `XYN`: four nibbles, `op` first (R92). -/
def wordXYN (op x y n : Nibble) : Word := op ++ x ++ y ++ n

/-- Formats `XB` and `XS`: `op`, `x` and a byte (R92). -/
def wordXB (op x : Nibble) (nn : Byte) : Word := op ++ x ++ nn

/-- Format `A`: `op` and a 12-bit address (R92). -/
def wordA (op : Nibble) (nnn : Addr12) : Word := op ++ nnn

/-- The encoder: the word of an instruction (R92, R96). It is meant for well-formed instructions. -/
def encode : Instr → Word
  | .sys nnn => wordA 0x0 nnn
  | .cls => 0x00E0
  | .ret => 0x00EE
  | .jp nnn => wordA 0x1 nnn
  | .call nnn => wordA 0x2 nnn
  | .seImm x nn => wordXB 0x3 x nn
  | .sneImm x nn => wordXB 0x4 x nn
  | .seReg x y => wordXYN 0x5 x y 0x0
  | .ldImm x nn => wordXB 0x6 x nn
  | .addImm x nn => wordXB 0x7 x nn
  | .ldReg x y => wordXYN 0x8 x y 0x0
  | .orReg x y => wordXYN 0x8 x y 0x1
  | .andReg x y => wordXYN 0x8 x y 0x2
  | .xorReg x y => wordXYN 0x8 x y 0x3
  | .addReg x y => wordXYN 0x8 x y 0x4
  | .sub x y => wordXYN 0x8 x y 0x5
  | .shr x y => wordXYN 0x8 x y 0x6
  | .subn x y => wordXYN 0x8 x y 0x7
  | .shl x y => wordXYN 0x8 x y 0xE
  | .sneReg x y => wordXYN 0x9 x y 0x0
  | .ldI nnn => wordA 0xA nnn
  | .jpV0 nnn => wordA 0xB nnn
  | .rnd x nn => wordXB 0xC x nn
  | .drw x y n => wordXYN 0xD x y n
  | .skp x => wordXB 0xE x 0x9E
  | .sknp x => wordXB 0xE x 0xA1
  | .ldVxDt x => wordXB 0xF x 0x07
  | .ldVxK x => wordXB 0xF x 0x0A
  | .ldDtVx x => wordXB 0xF x 0x15
  | .ldStVx x => wordXB 0xF x 0x18
  | .addI x => wordXB 0xF x 0x1E
  | .ldF x => wordXB 0xF x 0x29
  | .ldB x => wordXB 0xF x 0x33
  | .ldMemVx x => wordXB 0xF x 0x55
  | .ldVxMem x => wordXB 0xF x 0x65

/-- The two bytes of an instruction in memory order (R65). -/
def encodeBytes (i : Instr) : List Byte := [highByte (encode i), lowByte (encode i)]

/-- The 16-bit word of a number whose bits are given from bit 0 up, `nbits` of them: the bits above `nbits` are 0. -/
def tableWord (nbits w : Nat) : Word := BitVec.ofNat 16 (w % 2 ^ nbits)

/-- The instruction the decoder reads from an opcode-table row's bits: the word is laid out as the hardware stores it, high
byte first (R65), and given to the decoder. -/
def decodeTableWord (nbits w : Nat) : Option Instr :=
  match decodeBytes [highByte (tableWord nbits w), lowByte (tableWord nbits w)] with
  | .ok (i, _) => some i
  | .error _ => none

/-- One row of spec/opcode_table.json: the mnemonic, the fixed bits (`pattern` under `mask`) and the words it excludes. -/
structure OpRow where
  mnemonic : String
  pattern : Word
  mask : Word
  excludes : List Word
deriving DecidableEq, Repr

/-- The word matches the row: its fixed bits are the row's and it is none of the excluded words. -/
def OpRow.hits (r : OpRow) (w : Word) : Bool := w &&& r.mask == r.pattern && !r.excludes.contains w

/-- Rows 1-10 of the table: families 0 to 7. -/
def opcodeRowsLow : List OpRow :=
  [⟨"SYS", 0x0000, 0xF000, [0x00E0, 0x00EE]⟩, ⟨"CLS", 0x00E0, 0xFFFF, []⟩, ⟨"RET", 0x00EE, 0xFFFF, []⟩,
   ⟨"JP", 0x1000, 0xF000, []⟩, ⟨"CALL", 0x2000, 0xF000, []⟩, ⟨"SE_Vx__nn", 0x3000, 0xF000, []⟩,
   ⟨"SNE_Vx__nn", 0x4000, 0xF000, []⟩, ⟨"SE_Vx__Vy", 0x5000, 0xF00F, []⟩, ⟨"LD_Vx__nn", 0x6000, 0xF000, []⟩,
   ⟨"ADD_Vx__nn", 0x7000, 0xF000, []⟩]

/-- Rows 11-24 of the table: families 8 to D. -/
def opcodeRowsMid : List OpRow :=
  [⟨"LD_Vx__Vy", 0x8000, 0xF00F, []⟩, ⟨"OR_Vx__Vy", 0x8001, 0xF00F, []⟩, ⟨"AND_Vx__Vy", 0x8002, 0xF00F, []⟩,
   ⟨"XOR_Vx__Vy", 0x8003, 0xF00F, []⟩, ⟨"ADD_Vx__Vy", 0x8004, 0xF00F, []⟩, ⟨"SUB_Vx__Vy", 0x8005, 0xF00F, []⟩,
   ⟨"SHR_Vx", 0x8006, 0xF00F, []⟩, ⟨"SUBN_Vx__Vy", 0x8007, 0xF00F, []⟩, ⟨"SHL_Vx", 0x800E, 0xF00F, []⟩,
   ⟨"SNE_Vx__Vy", 0x9000, 0xF00F, []⟩, ⟨"LD_I__nnn", 0xA000, 0xF000, []⟩, ⟨"JP_V0__nnn", 0xB000, 0xF000, []⟩,
   ⟨"RND_Vx__nn", 0xC000, 0xF000, []⟩, ⟨"DRW_Vx__Vy__n", 0xD000, 0xF000, []⟩]

/-- Rows 25-35 of the table: families E and F. -/
def opcodeRowsHigh : List OpRow :=
  [⟨"SKP_Vx", 0xE09E, 0xF0FF, []⟩, ⟨"SKNP_Vx", 0xE0A1, 0xF0FF, []⟩, ⟨"LD_Vx__DT", 0xF007, 0xF0FF, []⟩,
   ⟨"LD_Vx__K", 0xF00A, 0xF0FF, []⟩, ⟨"LD_DT__Vx", 0xF015, 0xF0FF, []⟩, ⟨"LD_ST__Vx", 0xF018, 0xF0FF, []⟩,
   ⟨"ADD_I__Vx", 0xF01E, 0xF0FF, []⟩, ⟨"LD_F__Vx", 0xF029, 0xF0FF, []⟩, ⟨"LD_B__Vx", 0xF033, 0xF0FF, []⟩,
   ⟨"LD__I___Vx", 0xF055, 0xF0FF, []⟩, ⟨"LD_Vx___I", 0xF065, 0xF0FF, []⟩]

/-- The opcode table (R96, spec/opcode_table.json). The machine does not read it; it is what the decoder is held against. -/
def opcodeRows : List OpRow := opcodeRowsLow ++ opcodeRowsMid ++ opcodeRowsHigh

end Sys2Proof
end

