-- ==== Sys2Proof/Config.lean ====
section
/-! DEFINITION. The fixed sizes of the machine (00_scope.md R8), the behaviour parameters the spec gives a model as
arguments (R9), and the two values the spec leaves free, as opaque constants with no body. The value each parameter has
at reset is `Machine.defaultParams` (Sys2Proof/Machine/Defaults.lean). -/

namespace Sys2Proof

/-- `MEM_SIZE`: 4096 bytes, addresses 0x000-0xFFF (R8, R60). -/
abbrev memSize : Nat := 4096

/-- `STACK_DEPTH`: the call stack holds at most 16 return addresses (R8, R30). -/
abbrev stackDepth : Nat := 16

/-- `SYS_MODE` (R9, R163): what a SYS word does when executed. -/
inductive SysMode where
  | nop
  | halt
deriving DecidableEq, Repr

/-- `LOGIC_VF` (R9, R208-R210): whether OR, AND and XOR leave VF alone or clear it. -/
inductive LogicVf where
  | keep
  | zero
deriving DecidableEq, Repr

/-- `MEM_I_INCREMENT` (R9, R255, R256): whether LD [I],Vx and LD Vx,[I] advance `I`. -/
inductive MemIIncrement where
  | none
  | xPlus1
deriving DecidableEq, Repr

/-- `JPV0_MASK` (R9, R172): whether the target of JP V0,nnn is reduced to 12 bits. -/
inductive JpV0Mask where
  | none
  | mask12
deriving DecidableEq, Repr

/-- `DRAW_EDGE` (R9, R281, R283): what happens to a sprite bit past the right or bottom edge. -/
inductive DrawEdge where
  | wrap
  | clip
deriving DecidableEq, Repr

/-- `KEY_INDEX_OOR` (R9, R286): what SKP and SKNP do when `V[x] > 0xF` names no key. The spec lists the first three values
and gives no default. DESIGN CHOICE (log entry 2): the fourth, `free`, lets the key read as down or up, whichever
(`Config.keyOutOfRange`), and the instruction runs. -/
inductive KeyIndexOor where
  | maskLow4
  | notPressed
  | refuse
  | free
deriving DecidableEq, Repr

/-- `KEYWAIT_PC` (R9, R288): where `pc` stands during a key wait. -/
inductive KeywaitPc where
  | postAdvance
  | atInstruction
deriving DecidableEq, Repr

/-- The behaviour parameters of R9, one value each, fixed for an instance's life (R391). The eighth parameter, `RNG`, is the
oracle `Config.rngDraw`. -/
structure Params where
  sysMode : SysMode
  logicVf : LogicVf
  memIIncrement : MemIIncrement
  jpV0Mask : JpV0Mask
  drawEdge : DrawEdge
  keyIndexOor : KeyIndexOor
  keywaitPc : KeywaitPc
deriving DecidableEq, Repr

/-- The `RNG` oracle of R9 and R213: the byte of the `k`-th draw. FREE VALUE (log entry 3): nothing constrains it. -/
opaque Config.rngDraw : Nat → Byte

/-- Whether a key that does not exist reads as down, for the `k`-th time it is asked under `KeyIndexOor.free`. FREE VALUE (log
entry 2): the spec leaves it open (D17, N18) and nothing constrains it here. -/
opaque Config.keyOutOfRange : Nat → Bool

end Sys2Proof
end

