-- ==== Sys2Proof/Machine/Display.lean ====
section
/-! DEFINITION. The display (10_state.md R32) and its two primitives, the clear and the XOR sprite engine with its collision
detector (44_draw_input.md R280-R284). The display knows no register: it answers the collision flag and the executor
writes it (R284). -/

namespace Sys2Proof.Machine

/-- `disp[r][c]`: 32 rows of 64 boolean pixels, true = lit (R32). -/
abbrev Display := Vector (Vector Bool 64) 32

/-- The pixel at row `r`, column `c` (R32). -/
def Display.pixel (d : Display) (r : Fin 32) (c : Fin 64) : Bool := (d.get r).get c

/-- `clear()`: every cell false (R280). -/
def Display.clear : Display := Vector.replicate 32 (Vector.replicate 64 false)

/-- The pixel at row `r`, column `c` inverted: the XOR of a 1 bit onto the cell (R281). -/
def Display.toggle (d : Display) (r : Fin 32) (c : Fin 64) : Display :=
  d.set r ((d.get r).set c (!d.pixel r c))

/-- The display row that sprite row `r` of a sprite at vertical coordinate `y` falls on: `(y + r) mod 32` (R281, C2). -/
def spriteRow (y : Byte) (r : Nat) : Fin 32 := Fin.ofNat 32 (y.toNat + r)

/-- The display column that bit offset `c` of a sprite at horizontal coordinate `x` falls on: `(x + c) mod 64` (R281). -/
def spriteCol (x : Byte) (c : Nat) : Fin 64 := Fin.ofNat 64 (x.toNat + c)

/-- The bit is dropped: under `Clip`, one past the right or bottom edge from the wrapped start (R281, R283). -/
def clipped (edge : DrawEdge) (x y : Byte) (r c : Nat) : Bool :=
  match edge with
  | .wrap => false
  | .clip => decide (64 ≤ x.toNat % 64 + c) || decide (32 ≤ y.toNat % 32 + r)

/-- One sprite bit drawn: a 1 bit that is not clipped inverts its cell and reports a collision if the cell was lit (R281). -/
def drawBit (edge : DrawEdge) (x y : Byte) (r c : Nat) (bit : Bool) (acc : Display × Bool) : Display × Bool :=
  if clipped edge x y r c then acc
  else if bit then
    (acc.1.toggle (spriteRow y r) (spriteCol x c), acc.2 || acc.1.pixel (spriteRow y r) (spriteCol x c))
  else acc

/-- Bits `c` of a sprite row for `c` from 0, most significant bit first (R281, R282): the first `n` of them. -/
def drawBits (edge : DrawEdge) (x y : Byte) (r : Nat) (row : Byte) : Nat → Display × Bool → Display × Bool
  | 0, acc => acc
  | n + 1, acc => drawBit edge x y r n (row.getLsbD (7 - n)) (drawBits edge x y r row n acc)

/-- Sprite rows drawn one after the other, the first on sprite row `r` (R281). -/
def drawRows (edge : DrawEdge) (x y : Byte) : Nat → List Byte → Display × Bool → Display × Bool
  | _, [], acc => acc
  | r, row :: rows, acc => drawRows edge x y (r + 1) rows (drawBits edge x y r row 8 acc)

/-- `draw_sprite(x, y, rows)`: the display after the draw and the collision flag (R281, R284). -/
def drawSprite (edge : DrawEdge) (x y : Byte) (rows : List Byte) (d : Display) : Display × Bool :=
  drawRows edge x y 0 rows (d, false)

end Sys2Proof.Machine
end

