-- ==== Sys2Proof/Machine/Defaults.lean ====
section
/-! DEFINITION. The constants a reset state is made of: the parameters' spec defaults (00_scope.md R9), the reset `pc`, and the
font table with its base (20_memory.md R71, R72). They stand here, not in State.lean, so that a repair can mend them. -/

namespace Sys2Proof.Machine

/-- The parameters at reset: the spec defaults of R9. `KEY_INDEX_OOR` has no spec default; `free` is this model's choice (DESIGN
CHOICE, log entry 2). -/
def defaultParams : Params where
  sysMode := .nop
  logicVf := .keep
  memIIncrement := .none
  jpV0Mask := .none
  drawEdge := .wrap
  keyIndexOor := .free
  keywaitPc := .postAdvance

/-- `PC_RESET` and `PROGRAM_BASE` (R8, R40, R392). -/
def resetPc : Word := 0x200#16

/-- `FONT_BASE` (R8, D10). -/
def fontBase : Nat := 0x050

/-- Glyphs 0-3 of R72. -/
def fontGlyphs0 : List Byte :=
  [0xF0, 0x90, 0x90, 0x90, 0xF0, 0x20, 0x60, 0x20, 0x20, 0x70, 0xF0, 0x10, 0xF0, 0x80, 0xF0, 0xF0, 0x10, 0xF0, 0x10, 0xF0]

/-- Glyphs 4-7 of R72. -/
def fontGlyphs4 : List Byte :=
  [0x90, 0x90, 0xF0, 0x10, 0x10, 0xF0, 0x80, 0xF0, 0x10, 0xF0, 0xF0, 0x80, 0xF0, 0x90, 0xF0, 0xF0, 0x10, 0x20, 0x40, 0x40]

/-- Glyphs 8-B of R72. -/
def fontGlyphs8 : List Byte :=
  [0xF0, 0x90, 0xF0, 0x90, 0xF0, 0xF0, 0x90, 0xF0, 0x10, 0xF0, 0xF0, 0x90, 0xF0, 0x90, 0x90, 0xE0, 0x90, 0xE0, 0x90, 0xE0]

/-- Glyphs C-F of R72. -/
def fontGlyphsC : List Byte :=
  [0xF0, 0x80, 0x80, 0x80, 0xF0, 0xE0, 0x90, 0x90, 0x90, 0xE0, 0xF0, 0x80, 0xF0, 0x80, 0xF0, 0xF0, 0x80, 0xF0, 0x80, 0x80]

/-- The canonical font table `FONT`, 80 bytes (R72; its bytes are the spec's general knowledge, log entry 6). -/
def fontTable : List Byte := fontGlyphs0 ++ fontGlyphs4 ++ fontGlyphs8 ++ fontGlyphsC

end Sys2Proof.Machine
end

