-- ==== Sys2Proof/Machine/Memory.lean ====
section
/-! DEFINITION. The one address space (20_memory.md R60): 4096 bytes, held as the list of the (address, byte) pairs that differ
from the reset contents (R40, R71), addresses strictly rising. -/

namespace Sys2Proof.Machine

/-- Memory: the listed cells; every other address reads as `Memory.unlisted`. -/
abbrev Memory := List Host.Cell

/-- What an address that is not listed reads as: the contents R40 gives memory at construction, the font table at `FONT_BASE`
and 0x00 elsewhere. -/
def Memory.unlisted (a : Nat) : Byte :=
  if fontBase ≤ a then fontTable.getD (a - fontBase) 0#8 else 0#8

/-- The byte at an address: the last one written there, or the reset contents (R70). -/
def Memory.read : Memory → Nat → Byte
  | [], a => Memory.unlisted a
  | (b, v) :: m, a => if a = b then v else if a < b then Memory.unlisted a else Memory.read m a

/-- A cell put into the list at its place; a cell equal to the reset contents is not listed. -/
def Memory.insert : Memory → Nat → Byte → Memory
  | [], a, v => if v = Memory.unlisted a then [] else [(a, v)]
  | (b, w) :: m, a, v =>
    if a < b then
      if v = Memory.unlisted a then (b, w) :: m else (a, v) :: (b, w) :: m
    else if a = b then
      if v = Memory.unlisted a then m else (a, v) :: m
    else (b, w) :: Memory.insert m a v

/-- A byte written at an address; an address outside the 4096 bytes writes nothing (R62). -/
def Memory.write (m : Memory) (a : Nat) (v : Byte) : Memory :=
  if a < memSize then Memory.insert m a v else m

/-- Bytes written at ascending addresses from `a` (R63, R254, R255). -/
def Memory.writeList : Memory → Nat → List Byte → Memory
  | m, _, [] => m
  | m, a, v :: vs => Memory.writeList (Memory.write m a v) (a + 1) vs

/-- `count` bytes read at ascending addresses from `a` (R285). -/
def Memory.readList (m : Memory) : Nat → Nat → List Byte
  | _, 0 => []
  | a, n + 1 => Memory.read m a :: Memory.readList m (a + 1) n

/-- The listed cells from address `lo` up are in canonical form. -/
def Memory.wfFrom : Nat → Memory → Bool
  | _, [] => true
  | lo, (a, v) :: m => decide (lo ≤ a) && decide (a < memSize) && decide (v ≠ Memory.unlisted a) && Memory.wfFrom (a + 1) m

/-- The canonical form: addresses strictly rising and below 4096, no cell equal to the reset contents. -/
def Memory.wf (m : Memory) : Bool := Memory.wfFrom 0 m

end Sys2Proof.Machine
end

