-- ==== Sys2Proof/Machine/State.lean ====
section
/-! DEFINITION. The architectural state (10_state.md R20) as plain data, the errors of the chip (60_exceptions.md R340), the
reasons a step of the model can stop, and the state after construction (R40, R390). -/

namespace Sys2Proof.Machine

/-- The five error kinds, with their payloads (R340, D5). They are the chip's own: an error raised in a step ends in a NEXT
state that is Halted (R342); a failed host load is answered to the host (R348). -/
inductive CoreError where
  /-- A bulk write would run past 4096; raised by the host's `write` only (R63). -/
  | memoryOverflow (offset len : Nat)
  /-- The first invalid address of a fetch or an access (R66, R250). -/
  | outOfBounds (addr : Word)
  /-- No variant matches `word`, fetched at `pc`; or a SYS word under `SYS_MODE = Halt` (R136, R163). -/
  | unknownOpcode (word pc : Word)
  /-- CALL at `pc` with 16 entries on the stack (R161, R167). -/
  | stackOverflow (pc : Word)
  /-- RET at `pc` with an empty stack (R162, R165). -/
  | stackUnderflow (pc : Word)
deriving DecidableEq, Repr

/-- The numeric code of an error (R340, D36). -/
def CoreError.code : CoreError → Nat
  | .memoryOverflow _ _ => 1
  | .outOfBounds _ => 2
  | .unknownOpcode _ _ => 3
  | .stackOverflow _ => 4
  | .stackUnderflow _ => 5

/-- `run`, the executor's state machine (R35). -/
inductive Run where
  | running
  | halted (e : CoreError)
deriving DecidableEq, Repr

/-- The state record of one core instance (R20), then two fields of the model's own: the parameters of R9, fixed for the
instance's life (R391), and the counter that free values are applied to. -/
structure State where
  /-- `mem` (R60), the cells that differ from the reset contents. -/
  mem : Memory
  /-- `V[0..15]` (R21). -/
  v : Vector Byte 16
  /-- `I` (R25). -/
  i : Word
  /-- `pc` (R26). -/
  pc : Word
  /-- `stack[0..depth-1]`, the most recent entry at the head; `depth` is its length (R30). -/
  stack : List Word
  /-- `disp` (R32). -/
  disp : Display
  /-- `DT`, the delay timer (R33). -/
  dt : Byte
  /-- `ST`, the sound timer (R33). -/
  st : Byte
  /-- `keys[0..15]`, true = down (R34). -/
  keys : Vector Bool 16
  /-- `run` (R35). -/
  run : Run
  /-- `wait`: the register a pending key wait will write (R36). -/
  wait : Option RegIdx
  /-- The behaviour parameters of R9. The model's own field (log entry 1). -/
  params : Params
  /-- How many free values have been taken. The model's own field (log entry 4). -/
  freeCount : Nat
deriving DecidableEq, Repr

/-- Why the machine stops with a fault: never. Every error of this hardware has an entry the spec describes (R342), which the
model takes as a next state, so the type has no constructor (log entry 9). Safe. -/
inductive Fault where
deriving DecidableEq, Repr

/-- Why the model gives a step no successor. -/
inductive Refusal where
  /-- An arm of exec whose instruction has no meaning yet. Raised by no arm of this model. Safe. -/
  | notModelled (mnemonic : String)
  /-- SKP and SKNP when `V[x] > 0xF` in a state whose parameter `KEY_INDEX_OOR` is `Refuse`: "the model refuses the state"
  (R286, U16). No state the model resets to has that parameter. Safe. -/
  | keyIndexOutOfRange (index : Byte)
deriving DecidableEq, Repr

/-- The state right after construction (R40, R390) with the spec's default parameters (R9): the font is in memory's reset
contents, so no cell is listed. -/
def State.reset : State where
  mem := []
  v := Vector.replicate 16 0#8
  i := 0#16
  pc := resetPc
  stack := []
  disp := Display.clear
  dt := 0#8
  st := 0#8
  keys := Vector.replicate 16 false
  run := .running
  wait := none
  params := defaultParams
  freeCount := 0

end Sys2Proof.Machine
end

