-- ==== Sys2Proof/Machine/Ops.lean ====
section
/-! DEFINITION. The named operations every meaning is built from: one update per state field, the checked byte accesses
(20_memory.md R62), the fetch (R66), the range check of multi-byte accesses (43_memory_index.md R250), the call-stack manager
(41_control_flow.md R161, R162), and entering the Halted state (60_exceptions.md R342), the machine's only exception entry. -/

namespace Sys2Proof.Machine

/-! ## One update per field -/

/-- `mem` replaced. -/
def State.setMem (s : State) (m : Memory) : State := { s with mem := m }

/-- The register file replaced. -/
def State.setV (s : State) (v : Vector Byte 16) : State := { s with v := v }

/-- `I` replaced. -/
def State.setI (s : State) (a : Word) : State := { s with i := a }

/-- `pc` replaced. -/
def State.setPc (s : State) (a : Word) : State := { s with pc := a }

/-- The call stack replaced. -/
def State.setStack (s : State) (st : List Word) : State := { s with stack := st }

/-- The display replaced. -/
def State.setDisp (s : State) (d : Display) : State := { s with disp := d }

/-- `DT` replaced. -/
def State.setDt (s : State) (b : Byte) : State := { s with dt := b }

/-- `ST` replaced. -/
def State.setSt (s : State) (b : Byte) : State := { s with st := b }

/-- `keys` replaced. -/
def State.setKeys (s : State) (k : Vector Bool 16) : State := { s with keys := k }

/-- `run` replaced. -/
def State.setRun (s : State) (r : Run) : State := { s with run := r }

/-- `wait` replaced. -/
def State.setWait (s : State) (w : Option RegIdx) : State := { s with wait := w }

/-- One more free value has been taken. -/
def State.bumpFree (s : State) : State := { s with freeCount := s.freeCount + 1 }

/-! ## Errors -/

/-- `raise e`: entry into the Halted state (R342). Nothing is saved, nothing else changes, there is no handler; and there is no
return from it (R344): only constructing a new instance runs again (R391, `construct`). -/
def raise (e : CoreError) (s : State) : State := s.setRun (.halted e)

/-- The end of an execute rule (R137): its next state, or, when it raised an error, the state it began with, Halted. -/
def complete (s : State) (r : Except CoreError State) : Host.Outcome State Fault Refusal :=
  match r with
  | .ok t => .next t
  | .error e => .next (raise e s)

/-- `fa`, the fetch address of the instruction being executed: `pc` has been advanced by 2 (R135, R13). -/
def State.fetchAddr (s : State) : Word := s.pc - 2#16

/-! ## Memory -/

/-- `MemRead(addr, 1)`: the byte, or `OutOfBounds(addr)` at 4096 and above (R62). -/
def memRead (s : State) (a : Word) : Except CoreError Byte :=
  if a.toNat < memSize then .ok (s.mem.read a.toNat) else .error (.outOfBounds a)

/-- `MemWrite(addr, 1, v)`: the byte written, or `OutOfBounds(addr)` at 4096 and above and nothing written (R62). -/
def memWrite (s : State) (a : Word) (b : Byte) : Except CoreError State :=
  if a.toNat < memSize then .ok (s.setMem (s.mem.write a.toNat b)) else .error (.outOfBounds a)

/-- `check(base, count)` for `count >= 1` bytes from `base` (R250): the lowest address of the range that is out of bounds, if
one is. -/
def checkRange (base count : Nat) : Except CoreError Unit :=
  if memSize ≤ base + count - 1 then .error (.outOfBounds (BitVec.ofNat 16 (max base memSize))) else .ok ()

/-- `fetch()`: the word at `pc`, high byte first, or `OutOfBounds` of the first invalid address (R65, R66). -/
def fetch (s : State) : Except CoreError Word :=
  match memRead s s.pc with
  | .error e => .error e
  | .ok hi =>
    match memRead s (s.pc + 1#16) with
    | .error e => .error e
    | .ok lo => .ok (wordOfBytes hi lo)

/-- A word stored where the next step fetches: big-endian at `pc` (R65). A core that is halted or waits for a key fetches
nothing (R132, R133), so it is set running with no wait pending; on a running core only the two bytes change. -/
def placeFetchWord (s : State) (w : Word) : State :=
  ((s.setMem ((s.mem.write s.pc.toNat (highByte w)).write (s.pc.toNat + 1) (lowByte w))).setRun .running).setWait none

/-! ## The call-stack manager -/

/-- `push(a)`: fails with `StackOverflow` when the depth is already 16, otherwise appends (R161). -/
def push (a : Word) (s : State) : Except CoreError State :=
  if stackDepth ≤ s.stack.length then .error (.stackOverflow s.fetchAddr) else .ok (s.setStack (a :: s.stack))

/-- `pop()`: fails with `StackUnderflow` when empty, otherwise removes and returns the most recent entry (R162). -/
def pop (s : State) : Except CoreError (Word × State) :=
  match s.stack with
  | [] => .error (.stackUnderflow s.fetchAddr)
  | a :: rest => .ok (a, s.setStack rest)

/-! ## The step's own parts -/

/-- `pc <- pc + 2`, the step's advance (R135); done once more it is a skip (R160). -/
def State.advance (s : State) : State := s.setPc (s.pc + 2#16)

/-- What `step()` returns (R131). -/
inductive Status where
  | ok
  | awaitingKey
  | error (e : CoreError)
deriving DecidableEq, Repr

/-- The status of a step, read from the state it leaves (R131, R138, R139): Halted reports its error, a pending wait reports
`AwaitingKey`, all else is `Ok`. -/
def State.status (s : State) : Status :=
  match s.run with
  | .halted e => .error e
  | .running => if s.wait.isSome then .awaitingKey else .ok

end Sys2Proof.Machine
end

