-- ==== Sys2Proof/Machine/Operands.lean ====
section
/-! DEFINITION. Every operand form of the instruction set (30_encoding.md R93): a register by its 4-bit index, `I` as an address,
the implicit V0 of JP V0, register ranges V0..Vx, the three decimal digits of a register, a font glyph's address, a key, and
the free draw of RND. -/

namespace Sys2Proof.Machine

/-- `V[x]` read (R21). -/
def State.readV (s : State) (x : RegIdx) : Byte := s.v[x.toNat]'(x.isLt)

/-- `V[x] <- b` (R21). -/
def State.writeV (s : State) (x : RegIdx) (b : Byte) : State := s.setV (s.v.set x.toNat b x.isLt)

/-- A 12-bit address or a byte zero-extended to 16 bits (R93): `zext_16`. -/
def zext16 {n : Nat} (a : BitVec n) : Word := a.setWidth 16

/-- `I` as a memory address. -/
def State.base (s : State) : Nat := s.i.toNat

/-- `V0..Vx`, the bytes LD [I],Vx stores, in order (R255). -/
def State.regsThrough (s : State) (x : RegIdx) : List Byte := s.v.toList.take (x.toNat + 1)

/-- `V[i] <- mem[base + i]` for `i` from 0 up, `count` registers, ascending (R256). -/
def loadRegs (m : Memory) (base : Nat) : Nat → Vector Byte 16 → Vector Byte 16
  | 0, v => v
  | n + 1, v => (loadRegs m base n v).setIfInBounds n (m.read (base + n))

/-- `I` after LD [I],Vx and LD Vx,[I] (R255, R256): unchanged, or `(I + x + 1) & 0xFFF` under `MEM_I_INCREMENT = XPlus1`. -/
def State.incrementI (s : State) (x : RegIdx) : State :=
  match s.params.memIIncrement with
  | .none => s
  | .xPlus1 => s.setI ((s.i + zext16 x + 1#16) &&& 0x0FFF#16)

/-- The decimal digits of a byte, hundreds first (R254, R67). -/
def decimalDigits (v : Byte) : List Byte := [v / 100#8, v / 10#8 % 10#8, v % 10#8]

/-- The address of the glyph of a byte's low nibble: `FONT_BASE + 5 * (v & 0xF)` (R253). -/
def glyphAddr (v : Byte) : Word := BitVec.ofNat 16 fontBase + 5#16 * zext16 (v &&& 0x0F#8)

/-- `keys[k]` for a 4-bit key index (R34). -/
def State.keyDown (s : State) (k : Nibble) : Bool := s.keys[k.toNat]'(k.isLt)

/-- The state of the key that the byte `k` names, for SKP and SKNP (R286): the key vector for `k <= 0xF`, and for a larger `k`
what `KEY_INDEX_OOR` says. Under `free` the answer is a FREE VALUE (log entry 2) and one more free value has been taken. -/
def readKey (k : Byte) (s : State) : Except Refusal (Bool × State) :=
  if k ≤ 0x0F#8 then .ok (s.keyDown (k.setWidth 4), s)
  else
    match s.params.keyIndexOor with
    | .maskLow4 => .ok (s.keyDown (k.setWidth 4), s)
    | .notPressed => .ok (false, s)
    | .refuse => .error (.keyIndexOutOfRange k)
    | .free => .ok (Config.keyOutOfRange s.freeCount, s.bumpFree)

/-- Skip the next instruction if `c`: `pc` advances by an extra 2 (R160). -/
def skipIf (c : Bool) (s : State) : State := if c then s.advance else s

/-- The end of SKP and SKNP: skip if the key's state is `down`; the model's refusal where `KEY_INDEX_OOR = Refuse` gives the
instruction no meaning (R286). -/
def skipIfKey (down : Bool) (k : Byte) (s : State) : Host.Outcome State Fault Refusal :=
  match readKey k s with
  | .ok (b, t) => .next (skipIf (b == down) t)
  | .error r => .refused r

end Sys2Proof.Machine
end

