-- ==== Sys2Proof/Machine/Flags.lean ====
section
/-! DEFINITION. The ALU's results with their flags (42_arith_logic.md R200-R212), and the one operation that writes them: the
result to `V[x]`, then the flag to VF (R200). -/

namespace Sys2Proof.Machine

/-- A flag is the byte 0x01 for true and 0x00 for false (R201). -/
def flagByte (c : Bool) : Byte := if c then 0x01#8 else 0x00#8

/-- The flag written to VF (R22, R201). -/
def State.writeFlag (s : State) (c : Bool) : State := s.writeV vf (flagByte c)

/-- The result written to `V[x]` and last the flag to VF, so that the flag wins when `x = F` (R200). -/
def State.writeResult (s : State) (x : RegIdx) (r : Byte × Bool) : State := (s.writeV x r.1).writeFlag r.2

/-- The 9-bit sum of R205. -/
def sum9 (a b : Byte) : BitVec 9 := a.setWidth 9 + b.setWidth 9

/-- ADD with carry out (R205). -/
def addCarry (a b : Byte) : Byte × Bool := ((sum9 a b).setWidth 8, decide (255#9 < sum9 a b))

/-- Subtraction modulo 256 with flag NOT borrow (R206). -/
def subNoBorrow (a b : Byte) : Byte × Bool := (a - b, decide (b ≤ a))

/-- Shift right by 1 with the bit shifted out, the least significant (R211). -/
def shiftRight (v : Byte) : Byte × Bool := (v >>> 1, v.getLsbD 0)

/-- Shift left by 1 with the bit shifted out, the most significant (R212). -/
def shiftLeft (v : Byte) : Byte × Bool := (v <<< 1, v.getLsbD 7)

/-- The result of OR, AND or XOR written to `V[x]`; then VF cleared only under `LOGIC_VF = Zero` (R208-R210). -/
def State.writeLogic (s : State) (x : RegIdx) (r : Byte) : State :=
  match s.params.logicVf with
  | .keep => s.writeV x r
  | .zero => (s.writeV x r).writeFlag false

end Sys2Proof.Machine
end

