-- ==== Sys2Proof/Machine/Alu.lean ====
section
/-! DEFINITION. Arithmetic and logic (42_arith_logic.md R202-R213). Operands are read first, then the result is written, then
the flag (R200). -/

namespace Sys2Proof.Machine

/-- LD Vx, nn (R202). -/
def execLdImm (x : RegIdx) (nn : Byte) (s : State) : Host.Outcome State Fault Refusal := .next (s.writeV x nn)

/-- ADD Vx, nn (R204): modulo 256, no flag. -/
def execAddImm (x : RegIdx) (nn : Byte) (s : State) : Host.Outcome State Fault Refusal :=
  .next (s.writeV x (s.readV x + nn))

/-- LD Vx, Vy (R203). -/
def execLdReg (x y : RegIdx) (s : State) : Host.Outcome State Fault Refusal := .next (s.writeV x (s.readV y))

/-- OR Vx, Vy (R208). -/
def execOr (x y : RegIdx) (s : State) : Host.Outcome State Fault Refusal :=
  .next (s.writeLogic x (s.readV x ||| s.readV y))

/-- AND Vx, Vy (R209). -/
def execAnd (x y : RegIdx) (s : State) : Host.Outcome State Fault Refusal :=
  .next (s.writeLogic x (s.readV x &&& s.readV y))

/-- XOR Vx, Vy (R210). -/
def execXor (x y : RegIdx) (s : State) : Host.Outcome State Fault Refusal :=
  .next (s.writeLogic x (s.readV x ^^^ s.readV y))

/-- ADD Vx, Vy (R205): VF = carry. -/
def execAddReg (x y : RegIdx) (s : State) : Host.Outcome State Fault Refusal :=
  .next (s.writeResult x (addCarry (s.readV x) (s.readV y)))

/-- SUB Vx, Vy (R206): `Vx - Vy`, VF = NOT borrow. -/
def execSub (x y : RegIdx) (s : State) : Host.Outcome State Fault Refusal :=
  .next (s.writeResult x (subNoBorrow (s.readV x) (s.readV y)))

/-- SHR Vx (R211): Vx itself is shifted, `y` is ignored (R97); VF = the bit shifted out. -/
def execShr (x : RegIdx) (s : State) : Host.Outcome State Fault Refusal :=
  .next (s.writeResult x (shiftRight (s.readV x)))

/-- SUBN Vx, Vy (R207): `Vy - Vx` to Vx, VF = NOT borrow. -/
def execSubn (x y : RegIdx) (s : State) : Host.Outcome State Fault Refusal :=
  .next (s.writeResult x (subNoBorrow (s.readV y) (s.readV x)))

/-- SHL Vx (R212): Vx itself is shifted, `y` is ignored (R97); VF = the bit shifted out. -/
def execShl (x : RegIdx) (s : State) : Host.Outcome State Fault Refusal :=
  .next (s.writeResult x (shiftLeft (s.readV x)))

/-- RND Vx, nn on a draw `r` of the oracle: `V[x] <- r & nn` (R213), and one more free value has been taken. -/
def rndWith (r : Byte) (x : RegIdx) (nn : Byte) (s : State) : State := (s.writeV x (r &&& nn)).bumpFree

/-- RND Vx, nn (R213): the draw is a FREE VALUE (log entry 3). -/
def execRnd (x : RegIdx) (nn : Byte) (s : State) : Host.Outcome State Fault Refusal :=
  .next (rndWith (Config.rngDraw s.freeCount) x nn s)

end Sys2Proof.Machine
end

