-- ==== Sys2Proof/Machine/Control.lean ====
section
/-! DEFINITION. Control flow (41_control_flow.md R163-R172). In every meaning `pc` already holds `fa + 2` (R13, R135). -/

namespace Sys2Proof.Machine

/-- SYS nnn (R163): no effect under `SYS_MODE = Nop`; `UnknownOpcode(word, fa)` under `Halt`. -/
def execSys (nnn : Addr12) (s : State) : Host.Outcome State Fault Refusal :=
  match s.params.sysMode with
  | .nop => .next s
  | .halt => complete s (.error (.unknownOpcode (wordA 0x0#4 nnn) s.fetchAddr))

/-- CLS (R164). -/
def execCls (s : State) : Host.Outcome State Fault Refusal := .next (s.setDisp Display.clear)

/-- RET (R165): `pc <- pop()`. -/
def execRet (s : State) : Host.Outcome State Fault Refusal :=
  complete s ((pop s).map fun r => r.2.setPc r.1)

/-- JP nnn (R166). -/
def execJp (nnn : Addr12) (s : State) : Host.Outcome State Fault Refusal := .next (s.setPc (zext16 nnn))

/-- CALL nnn (R167): `push(pc); pc <- nnn`. -/
def execCall (nnn : Addr12) (s : State) : Host.Outcome State Fault Refusal :=
  complete s ((push s.pc s).map fun t => t.setPc (zext16 nnn))

/-- SE Vx, nn (R168). -/
def execSeImm (x : RegIdx) (nn : Byte) (s : State) : Host.Outcome State Fault Refusal :=
  .next (skipIf (s.readV x == nn) s)

/-- SNE Vx, nn (R169). -/
def execSneImm (x : RegIdx) (nn : Byte) (s : State) : Host.Outcome State Fault Refusal :=
  .next (skipIf (s.readV x != nn) s)

/-- SE Vx, Vy (R170). -/
def execSeReg (x y : RegIdx) (s : State) : Host.Outcome State Fault Refusal :=
  .next (skipIf (s.readV x == s.readV y) s)

/-- SNE Vx, Vy (R171). -/
def execSneReg (x y : RegIdx) (s : State) : Host.Outcome State Fault Refusal :=
  .next (skipIf (s.readV x != s.readV y) s)

/-- The target of JP V0, nnn (R172): `nnn + V0` in 16 bits, reduced to 12 bits under `JPV0_MASK = Mask12`. -/
def jumpTarget (nnn : Addr12) (s : State) : Word :=
  match s.params.jpV0Mask with
  | .none => zext16 nnn + zext16 (s.readV 0x0#4)
  | .mask12 => (zext16 nnn + zext16 (s.readV 0x0#4)) &&& 0x0FFF#16

/-- JP V0, nnn (R172). -/
def execJpV0 (nnn : Addr12) (s : State) : Host.Outcome State Fault Refusal := .next (s.setPc (jumpTarget nnn s))

end Sys2Proof.Machine
end

