-- ==== Sys2Proof/Machine/Draw.lean ====
section
/-! DEFINITION. Draw and input instructions (44_draw_input.md R285-R288). -/

namespace Sys2Proof.Machine

/-- The range check of DRW: none for an empty sprite (R285, D16). -/
def checkSprite (base n : Nat) : Except CoreError Unit := if n = 0 then .ok () else checkRange base n

/-- The display and collision flag of drawing `n` rows from `I` at the coordinates in Vx and Vy: all rows are read before any
pixel changes (R285). -/
def drawnSprite (x y : RegIdx) (n : Nibble) (s : State) : Display × Bool :=
  drawSprite s.params.drawEdge (s.readV x) (s.readV y) (s.mem.readList s.base n.toNat) s.disp

/-- DRW Vx, Vy, n (R285): VF = collision, always written; `I` is unchanged. -/
def execDrw (x y : RegIdx) (n : Nibble) (s : State) : Host.Outcome State Fault Refusal :=
  complete s ((checkSprite s.base n.toNat).map fun _ =>
    (s.setDisp (drawnSprite x y n s).1).writeFlag (drawnSprite x y n s).2)

/-- SKP Vx (R286): skip if the key is down. -/
def execSkp (x : RegIdx) (s : State) : Host.Outcome State Fault Refusal := skipIfKey true (s.readV x) s

/-- SKNP Vx (R287): skip if the key is up. -/
def execSknp (x : RegIdx) (s : State) : Host.Outcome State Fault Refusal := skipIfKey false (s.readV x) s

/-- `pc` during a key wait (R288): `fa + 2`, or `fa` under `KEYWAIT_PC = AtInstruction`. -/
def State.waitPc (s : State) : State :=
  match s.params.keywaitPc with
  | .postAdvance => s
  | .atInstruction => s.setPc (s.pc - 2#16)

/-- LD Vx, K (R288): the key wait begins; the key vector is not consulted. -/
def execLdVxK (x : RegIdx) (s : State) : Host.Outcome State Fault Refusal := .next (s.setWait (some x)).waitPc

end Sys2Proof.Machine
end

