-- ==== Sys2Proof/Machine/Index.lean ====
section
/-! DEFINITION. Memory and index-register instructions (43_memory_index.md R251-R256). The whole range of a multi-byte access
is checked before anything changes (R250). -/

namespace Sys2Proof.Machine

/-- LD I, nnn (R251). -/
def execLdI (nnn : Addr12) (s : State) : Host.Outcome State Fault Refusal := .next (s.setI (zext16 nnn))

/-- ADD I, Vx (R252): masked to 12 bits, VF not written. -/
def execAddI (x : RegIdx) (s : State) : Host.Outcome State Fault Refusal :=
  .next (s.setI ((s.i + zext16 (s.readV x)) &&& 0x0FFF#16))

/-- LD F, Vx (R253). -/
def execLdF (x : RegIdx) (s : State) : Host.Outcome State Fault Refusal := .next (s.setI (glyphAddr (s.readV x)))

/-- LD B, Vx (R254). -/
def execLdB (x : RegIdx) (s : State) : Host.Outcome State Fault Refusal :=
  complete s ((checkRange s.base 3).map fun _ => s.setMem (s.mem.writeList s.base (decimalDigits (s.readV x))))

/-- LD [I], Vx (R255). -/
def execLdMemVx (x : RegIdx) (s : State) : Host.Outcome State Fault Refusal :=
  complete s ((checkRange s.base (x.toNat + 1)).map fun _ =>
    (s.setMem (s.mem.writeList s.base (s.regsThrough x))).incrementI x)

/-- LD Vx, [I] (R256). -/
def execLdVxMem (x : RegIdx) (s : State) : Host.Outcome State Fault Refusal :=
  complete s ((checkRange s.base (x.toNat + 1)).map fun _ =>
    (s.setV (loadRegs s.mem s.base (x.toNat + 1) s.v)).incrementI x)

end Sys2Proof.Machine
end

