-- ==== Sys2Proof/Machine/Timers.lean ====
section
/-! DEFINITION. The timer instructions (45_timers.md R320-R322). The countdown is the host's `timer_tick`
(Sys2Proof/Machine/Transactions.lean), no part of a step (R142). -/

namespace Sys2Proof.Machine

/-- LD Vx, DT (R321). -/
def execLdVxDt (x : RegIdx) (s : State) : Host.Outcome State Fault Refusal := .next (s.writeV x s.dt)

/-- LD DT, Vx (R320). -/
def execLdDtVx (x : RegIdx) (s : State) : Host.Outcome State Fault Refusal := .next (s.setDt (s.readV x))

/-- LD ST, Vx (R322). -/
def execLdStVx (x : RegIdx) (s : State) : Host.Outcome State Fault Refusal := .next (s.setSt (s.readV x))

end Sys2Proof.Machine
end

