-- ==== Sys2Proof/Machine/Cycle.lean ====
section
/-! DEFINITION. The fetch-decode-execute cycle (40_pipeline.md R139), in the order of its checks (60_exceptions.md R346). It
stands here, not in Step.lean, so that a repair can mend it. -/

namespace Sys2Proof.Machine

/-- Decode and execute a word fetched at `fa` in a state whose `pc` has been advanced (R136, R137): an unknown word halts with
`UnknownOpcode(word, fa)` and `pc` stays advanced. -/
def dispatchWord (fa w : Word) (s : State) : Host.Outcome State Fault Refusal :=
  match decode w with
  | .error _ => .next (raise (.unknownOpcode w fa) s)
  | .ok i => exec i s

/-- Fetch, advance, decode and execute (R134-R137): a failed fetch halts with nothing advanced. -/
def runCycle (s : State) : Host.Outcome State Fault Refusal :=
  match fetch s with
  | .error e => .next (raise e s)
  | .ok w => dispatchWord s.pc w s.advance

/-- The whole step (R139): a Halted core re-reports (R132), a key wait goes on (R133), else one cycle. -/
def stepOnce (s : State) : Host.Outcome State Fault Refusal :=
  match s.run with
  | .halted _ => .next s
  | .running =>
    match s.wait with
    | some _ => .next s
    | none => runCycle s

end Sys2Proof.Machine
end

