-- ==== Sys2Proof/Machine/Step.lean ====
section
/-! DEFINITION. The step transaction (40_pipeline.md R130, R139) and the placing of an instruction where the next step fetches.
The status `step()` returns is `State.status` of the state it leaves (R131). -/

namespace Sys2Proof.Machine

/-- `step()`: executes at most one instruction (R139, R141). -/
def step (s : State) : Host.Outcome State Fault Refusal := stepOnce s

/-- The state with the instruction whose table bits are `w` stored where the next step fetches (R65, R66; log entry 15). -/
def State.withFetchWord (s : State) (nbits w : Nat) : State := placeFetchWord s (tableWord nbits w)

end Sys2Proof.Machine
end

