-- ==== Sys2Proof/Machine/Transactions.lean ====
section
/-! DEFINITION. The block's whole interface (40_pipeline.md R130): the transactions a host invokes, each running to completion
before the next (20_memory.md R69), and construction, the only reset (70_reset_and_hazards.md R390). `step` is one of them;
the others are the outside world acting between steps. -/

namespace Sys2Proof.Machine

/-- Constructing an instance with parameters `p` and font table `font` (R390, R391, R72): every component at its reset value,
then the table written at `FONT_BASE`. -/
def construct (p : Params) (font : Vector Byte 80) : State :=
  { State.reset with params := p, mem := Memory.writeList State.reset.mem fontBase font.toList }

/-- A counter down by 1 if greater than 0 (R323). -/
def countDown (b : Byte) : Byte := if b = 0#8 then 0#8 else b - 1#8

/-- `timer_tick()` (R323): acts in every state of `run` and `wait`. -/
def timerTick (s : State) : State := (s.setDt (countDown s.dt)).setSt (countDown s.st)

/-- `write(bytes, offset)` (R63): all the bytes, or `MemoryOverflow` and no change. -/
def hostWrite (bytes : List Byte) (offset : Nat) (s : State) : Except CoreError State :=
  if memSize < offset + bytes.length then .error (.memoryOverflow offset bytes.length)
  else .ok (s.setMem (s.mem.writeList offset bytes))

/-- `set_keys(k[0..15])` (R290). -/
def setKeys (k : Vector Bool 16) (s : State) : State := s.setKeys k

/-- `pc` after a key wait is released (R289): moved past the instruction under `KEYWAIT_PC = AtInstruction`. -/
def State.resumePc (s : State) : State :=
  match s.params.keywaitPc with
  | .postAdvance => s
  | .atInstruction => s.advance

/-- `notify_key(k)` (R289): populates the waiting register and ends the wait; ignored when no wait is pending. -/
def notifyKey (k : Nibble) (s : State) : State :=
  match s.run, s.wait with
  | .running, some x => ((s.writeV x (k.setWidth 8)).setWait none).resumePc
  | _, _ => s

/-- `row(y)` of the display read accessor (R291). -/
def displayRow (y : Fin 32) (s : State) : Vector Bool 64 := s.disp.get y

/-- The tone signal `ST > 0` (R324). -/
def toneOn (s : State) : Bool := decide (0#8 < s.st)

/-- The transactions of R130. -/
inductive Transaction where
  | step
  | timerTick
  | write (bytes : List Byte) (offset : Nat)
  | setKeys (k : Vector Bool 16)
  | notifyKey (k : Nibble)
  /-- Display read, full grid (R291). -/
  | readDisplay
  /-- Display read, one row (R291). -/
  | readRow (y : Fin 32)
  /-- Sound read (R324). -/
  | readSound
  /-- State read (R130, D27). -/
  | readState
deriving DecidableEq, Repr

/-- What a transaction returns to the host (R130). -/
inductive Response where
  /-- The status of a step (R131). -/
  | status (r : Status)
  /-- Nothing: `timer_tick`, `set_keys`, `notify_key`. -/
  | nothing
  /-- `Ok` of a bulk write. -/
  | written
  /-- The error of a bulk write (R348). -/
  | rejected (e : CoreError)
  | display (d : Display)
  | row (r : Vector Bool 64)
  | sound (b : Byte)
  | state (s : State)
deriving DecidableEq, Repr

/-- One transaction: its response and the state it leaves (R130). -/
def transact (t : Transaction) (s : State) : Host.Outcome (Response × State) Fault Refusal :=
  match t with
  | .step =>
    match Sys2Proof.Machine.step s with
    | .next u => .next (.status u.status, u)
    | .fault f => .fault f
    | .refused r => .refused r
  | .timerTick => .next (.nothing, Sys2Proof.Machine.timerTick s)
  | .write bytes offset =>
    match hostWrite bytes offset s with
    | .ok u => .next (.written, u)
    | .error e => .next (.rejected e, s)
  | .setKeys k => .next (.nothing, Sys2Proof.Machine.setKeys k s)
  | .notifyKey k => .next (.nothing, Sys2Proof.Machine.notifyKey k s)
  | .readDisplay => .next (.display s.disp, s)
  | .readRow y => .next (.row (displayRow y s), s)
  | .readSound => .next (.sound s.st, s)
  | .readState => .next (.state s, s)

/-- A list of transactions, first to last (R75): the responses in order and the state left. -/
def transactAll : List Transaction → State → Host.Outcome (List Response × State) Fault Refusal
  | [], s => .next ([], s)
  | t :: ts, s =>
    match transact t s with
    | .fault f => .fault f
    | .refused r => .refused r
    | .next (a, u) =>
      match transactAll ts u with
      | .next (as, w) => .next (a :: as, w)
      | .fault f => .fault f
      | .refused r => .refused r

end Sys2Proof.Machine
end

