-- ==== Sys2Proof/Safety.lean ====
section
/-! DEFINITION. The terms claims are made in: which components of the state a change leaves alone, what holds of every state
a run reaches, and which states are reached. -/

namespace Sys2Proof.Machine

/-- The components of the state record (10_state.md R20), and the model's own two. -/
inductive Component where
  | mem | v | i | pc | stack | disp | dt | st | keys | run | wait | params | freeCount
deriving DecidableEq, Repr

/-- The component is the same in both states; for memory, every address reads the same byte. -/
def Component.Same (s t : State) : Component → Prop
  | .mem => ∀ a, t.mem.read a = s.mem.read a
  | .v => t.v = s.v
  | .i => t.i = s.i
  | .pc => t.pc = s.pc
  | .stack => t.stack = s.stack
  | .disp => t.disp = s.disp
  | .dt => t.dt = s.dt
  | .st => t.st = s.st
  | .keys => t.keys = s.keys
  | .run => t.run = s.run
  | .wait => t.wait = s.wait
  | .params => t.params = s.params
  | .freeCount => t.freeCount = s.freeCount

/-- The frame: every component that is not named is unchanged from `s` to `t`. -/
def OnlyChanges (cs : List Component) (s t : State) : Prop := ∀ c, c ∉ cs → Component.Same s t c

/-- Every register that is not named is unchanged from `s` to `t`. -/
def OnlyRegs (xs : List RegIdx) (s t : State) : Prop := ∀ r, r ∉ xs → t.readV r = s.readV r

/-- Every byte of memory outside `count` bytes from `base` is unchanged from `s` to `t`. -/
def OnlyBytes (base count : Nat) (s t : State) : Prop :=
  ∀ a, a < base ∨ base + count ≤ a → t.mem.read a = s.mem.read a

/-- The core fetches at its next step: Running, no key wait pending (40_pipeline.md R134). -/
def State.Ready (s : State) : Prop := s.run = .running ∧ s.wait = none

/-- What holds of every state a run reaches, each with its rule. A safe run is one whose states all satisfy it. -/
structure State.Inv (s : State) : Prop where
  /-- Memory is in canonical form (the model's own form, log entry 13). -/
  mem_wf : s.mem.wf = true
  /-- `I <= 0xFFF` (R25). -/
  index_le : s.i.toNat ≤ 0xFFF
  /-- `pc` is at most 0x10FE (R27). -/
  pc_le : s.pc.toNat ≤ 0x10FE
  /-- The depth never exceeds 16 (R30). -/
  depth_le : s.stack.length ≤ 16
  /-- A return address is at most 0x1000 (R165). -/
  stack_le : ∀ a ∈ s.stack, a.toNat ≤ 0x1000
  /-- A key wait is pending only while Running (R36). -/
  wait_running : s.wait.isSome = true → s.run = .running
  /-- During a key wait `pc` is at most 0x1000 (R288: it is `fa` or `fa + 2`). -/
  wait_pc_le : s.wait.isSome = true → s.pc.toNat ≤ 0x1000
  /-- No failed host load halts the core (R348). -/
  halt_kind : ∀ offset len, s.run ≠ .halted (.memoryOverflow offset len)

/-- The states of a run: a constructed instance, with any parameters and any font, after any transactions (R130, R390). -/
inductive Reachable : State → Prop where
  | construct (p : Params) (font : Vector Byte 80) : Reachable (construct p font)
  | transact {s u : State} {a : Response} (t : Transaction) : Reachable s → transact t s = .next (a, u) → Reachable u

/-- The instructions that can raise no error in this state (60_exceptions.md R341). -/
def CannotFail (s : State) : Instr → Prop
  | .sys _ => s.params.sysMode = .nop
  | .skp x | .sknp x => s.readV x ≤ 0x0F#8 ∨ s.params.keyIndexOor ≠ .refuse
  | .call _ | .ret | .drw _ _ _ | .ldB _ | .ldMemVx _ | .ldVxMem _ => False
  | .cls | .jp _ | .jpV0 _ | .seImm _ _ | .sneImm _ _ | .seReg _ _ | .sneReg _ _ => True
  | .ldImm _ _ | .addImm _ _ | .ldReg _ _ | .orReg _ _ | .andReg _ _ | .xorReg _ _ | .addReg _ _ => True
  | .sub _ _ | .subn _ _ | .shr _ _ | .shl _ _ | .rnd _ _ => True
  | .ldI _ | .addI _ | .ldF _ | .ldVxK _ | .ldVxDt _ | .ldDtVx _ | .ldStVx _ => True

/-- The registers an instruction may write, as its destination or as the flag (10_state.md R22, R23). -/
def MayWrite (p : Params) (r : RegIdx) : Instr → Prop
  | .ldImm x _ | .addImm x _ | .ldReg x _ | .rnd x _ | .ldVxDt x => r = x
  | .orReg x _ | .andReg x _ | .xorReg x _ => r = x ∨ p.logicVf = .zero ∧ r = vf
  | .addReg x _ | .sub x _ | .subn x _ | .shr x _ | .shl x _ => r = x ∨ r = vf
  | .drw _ _ _ => r = vf
  | .ldVxMem x => r ≤ x
  | .sys _ | .cls | .ret | .jp _ | .call _ | .jpV0 _ => False
  | .seImm _ _ | .sneImm _ _ | .seReg _ _ | .sneReg _ _ | .skp _ | .sknp _ => False
  | .ldI _ | .addI _ | .ldF _ | .ldB _ | .ldMemVx _ | .ldVxK _ | .ldDtVx _ | .ldStVx _ => False

/-- A 1 bit of a sprite of `h` rows drawn at `(x, y)` lands on the pixel at row `r`, column `c`: the pixel lies `dr < h` rows
and `dc < 8` columns from the wrapped start, the sprite's bit there is 1, and under `Clip` it lies on this side of the
right and bottom edges (44_draw_input.md R281-R283). -/
def spriteLights (edge : DrawEdge) (x y : Byte) (h : Nat) (rows : Nat → Byte) (r : Fin 32) (c : Fin 64) : Bool :=
  let dr := (r.val + 256 - y.toNat) % 32
  let dc := (c.val + 256 - x.toNat) % 64
  decide (dr < h) && decide (dc < 8) && (rows dr).getLsbD (7 - dc) &&
    (decide (edge = .wrap) || decide (y.toNat % 32 + dr < 32) && decide (x.toNat % 64 + dc < 64))

/-- `f` applied to the next state of an outcome. -/
def mapNext (f : State → State) : Host.Outcome State Fault Refusal → Host.Outcome State Fault Refusal
  | .next s => .next (f s)
  | .fault r => .fault r
  | .refused r => .refused r

end Sys2Proof.Machine
end

