-- ==== Sys2Proof/Certificates/Slice0/Obligations.lean ====
section
/-! DEFINITION. The statements for the provers, from the spec's numbered rules. `exec i s` is the execute phase: `pc` in `s` already
holds the address of the next instruction (R13, R135). Frames are said with `OnlyChanges`, `OnlyRegs` and `OnlyBytes`
(Sys2Proof/Safety.lean). -/

open Sys2Proof Sys2Proof.Machine

/-- At reset the core is Running with pc = 0x200, no key wait, an empty stack, every register, I and both timers 0, every
pixel off and every key up; memory holds the 80 canonical font bytes at 0x050-0x09F and 0 everywhere else. The zeros
are the spec's own decision D20 and the font bytes its general knowledge (log entries 5 and 6). (Derived: 10_state.md
section 10 (reset table), 92_eei_decisions.md D20, 20_memory.md section 5 (font table).) -/
def Obligations.ResetHoldsTheTableValues : Prop :=
  let s := State.reset
  s.run = .running ∧ s.pc = 0x200#16 ∧ s.wait = none ∧ s.stack = [] ∧ s.i = 0#16 ∧ s.dt = 0#8 ∧ s.st = 0#8 ∧
    (∀ x, s.readV x = 0#8) ∧ (∀ r c, s.disp.pixel r c = false) ∧ (∀ k, s.keyDown k = false) ∧
    s.mem.readList 0x050 20 = [0xF0, 0x90, 0x90, 0x90, 0xF0, 0x20, 0x60, 0x20, 0x20, 0x70,
      0xF0, 0x10, 0xF0, 0x80, 0xF0, 0xF0, 0x10, 0xF0, 0x10, 0xF0] ∧
    s.mem.readList 0x064 20 = [0x90, 0x90, 0xF0, 0x10, 0x10, 0xF0, 0x80, 0xF0, 0x10, 0xF0,
      0xF0, 0x80, 0xF0, 0x90, 0xF0, 0xF0, 0x10, 0x20, 0x40, 0x40] ∧
    s.mem.readList 0x078 20 = [0xF0, 0x90, 0xF0, 0x90, 0xF0, 0xF0, 0x90, 0xF0, 0x10, 0xF0,
      0xF0, 0x90, 0xF0, 0x90, 0x90, 0xE0, 0x90, 0xE0, 0x90, 0xE0] ∧
    s.mem.readList 0x08C 20 = [0xF0, 0x80, 0x80, 0x80, 0xF0, 0xE0, 0x90, 0x90, 0x90, 0xE0,
      0xF0, 0x80, 0xF0, 0x80, 0xF0, 0xF0, 0x80, 0xF0, 0x80, 0x80] ∧
    (∀ a, a < 0x050 ∨ 0x0A0 ≤ a → s.mem.read a = 0#8)

/-- State.reset satisfies State.Inv: memory canonical, I at most 0xFFF, pc at most 0x10FE, depth at most 16, return
addresses at most 0x1000, a key wait only while Running and with pc at most 0x1000, no halt by MemoryOverflow.
(Derived: 10_state.md section 10, 10_state.md sections 3, 4, 5 and 9.) -/
def Obligations.ResetSatisfiesInvariant : Prop :=
  State.reset.Inv

/-- For all parameters p and every 80-byte font: construct p font satisfies the invariant, has parameters p, holds the
font at 0x050-0x09F and 0 elsewhere, and is State.reset in every other component. The base 0x050 and the zeros are the
spec's decisions D10 and D20 (log entries 5 and 6). (Derived: 70_reset_and_hazards.md section 1, 20_memory.md section
5, 92_eei_decisions.md D10, D20, D21.) -/
def Obligations.ConstructionLoadsAnyFont : Prop :=
  ∀ (p : Params) (font : Vector Byte 80),
    (construct p font).Inv ∧ (construct p font).params = p ∧
      (∀ k : Fin 80, (construct p font).mem.read (0x050 + k.val) = font.get k) ∧
      (∀ a, a < 0x050 ∨ 0x0A0 ≤ a → (construct p font).mem.read a = 0#8) ∧
      OnlyChanges [.mem, .params] State.reset (construct p font)

/-- From every state that satisfies State.Inv, if step answers a next state, that state satisfies State.Inv. (Derived:
10_state.md sections 3, 4, 5 and 9, 40_pipeline.md section 2, 60_exceptions.md section 4.) -/
def Obligations.StepKeepsInvariant : Prop :=
  ∀ s t : State, s.Inv → step s = .next t → t.Inv

/-- construct p font satisfies State.Inv for all parameters and fonts; from every state that satisfies it, if any
transaction (step, timer_tick, write, set_keys, notify_key or a read) answers a next state, that state satisfies it;
and every Reachable state satisfies it. (Derived: 10_state.md sections 3, 4, 5 and 9, 40_pipeline.md section 1,
44_draw_input.md section 3, 60_exceptions.md section 4, 70_reset_and_hazards.md section 1.) -/
def Obligations.ReachableStatesSatisfyInvariant : Prop :=
  (∀ (p : Params) (font : Vector Byte 80), (construct p font).Inv) ∧
    (∀ (tr : Transaction) (s u : State) (a : Response), s.Inv → transact tr s = .next (a, u) → u.Inv) ∧
    (∀ s : State, Reachable s → s.Inv)

/-- For every well-formed instruction i, with every operand at every value: decode (encode i) = ok i, and decodeBytes
reads i from its two bytes and leaves the rest. The encodings are the spec's general knowledge but for CLS and JP (log
entry 7). (Derived: 30_encoding.md sections 1, 2 and 3, opcode_table.json, 93_implementation_defined.md G7, G8.) -/
def Obligations.DecodeOfEncodeIsIdentity : Prop :=
  ∀ i : Instr, i.wellFormed = true →
    decode (encode i) = .ok i ∧ ∀ rest, decodeBytes (encodeBytes i ++ rest) = .ok (i, rest)

/-- If decode w = ok i then i is well-formed and encode i = w. The encodings are the spec's general knowledge but for CLS
and JP (log entry 7). (Derived: 30_encoding.md sections 1, 2 and 3, 93_implementation_defined.md G7, G8.) -/
def Obligations.EncodeOfDecodeIsIdentity : Prop :=
  ∀ (w : Word) (i : Instr), decode w = .ok i → i.wellFormed = true ∧ encode i = w

/-- decode w is an error exactly when w is 5xyn or 9xyn with n != 0, 8xyn with n in 8, 9, A, B, C, D, F, Exnn with nn not
9E or A1, or Fxnn with nn not one of the nine listed; the error is then unknownOpcode w. The fixed sub-fields are the
spec's decision D3 and general knowledge (log entry 7). (Derived: 30_encoding.md section 4 (unknown words by family),
92_eei_decisions.md D3, 93_implementation_defined.md G9.) -/
def Obligations.UnknownWordsAreExactlyTheListed : Prop :=
  ∀ w : Word,
    let op := w.toNat / 4096
    let n := w.toNat % 16
    let nn := w.toNat % 256
    (decode w = .error (.unknownOpcode w) ↔
      (op = 5 ∧ n ≠ 0) ∨ (op = 9 ∧ n ≠ 0) ∨ (op = 8 ∧ n ∈ [0x8, 0x9, 0xA, 0xB, 0xC, 0xD, 0xF]) ∨
        (op = 0xE ∧ nn ∉ [0x9E, 0xA1]) ∨
        (op = 0xF ∧ nn ∉ [0x07, 0x0A, 0x15, 0x18, 0x1E, 0x29, 0x33, 0x55, 0x65])) ∧
      (decode w = .error (.unknownOpcode w) ∨ ∃ i, decode w = .ok i)

/-- If decode w = ok i, a row of the opcode table is hit by w exactly when it is the row of i's mnemonic; if decode
rejects w, no row is hit. So no two rows overlap. The encodings are the spec's general knowledge but for CLS and JP
(log entry 7). (Derived: 30_encoding.md section 3, opcode_table.json.) -/
def Obligations.DecodeAgreesWithOpcodeTable : Prop :=
  ∀ w : Word,
    (∀ i, decode w = .ok i → ∀ row ∈ opcodeRows, (row.hits w = true ↔ row.mnemonic = i.mnemonic)) ∧
      (∀ r, decode w = .error r → ∀ row ∈ opcodeRows, row.hits w = false)

/-- A few words written in the test vectors, one per family, decode to the instruction with the operands the vectors name.
The encodings are the spec's general knowledge but for CLS and JP (log entry 7). (Derived: 95_test_vectors.md section
2, 30_encoding.md section 3.) -/
def Obligations.SampleWordsDecode : Prop :=
  decode 0x00E0#16 = .ok .cls ∧ decode 0x1ABC#16 = .ok (.jp 0xABC#12) ∧ decode 0x2300#16 = .ok (.call 0x300#12) ∧
    decode 0x3342#16 = .ok (.seImm 0x3#4 0x42#8) ∧ decode 0x8124#16 = .ok (.addReg 0x1#4 0x2#4) ∧
    decode 0x810E#16 = .ok (.shl 0x1#4 0x0#4) ∧ decode 0xA123#16 = .ok (.ldI 0x123#12) ∧
    decode 0xD123#16 = .ok (.drw 0x1#4 0x2#4 0x3#4) ∧ decode 0xE19E#16 = .ok (.skp 0x1#4) ∧
    decode 0xF615#16 = .ok (.ldDtVx 0x6#4) ∧ decode 0xF533#16 = .ok (.ldB 0x5#4) ∧
    decode 0x5121#16 = .error (.unknownOpcode 0x5121#16)

/-- In a Running state with no key wait whose bytes at pc and pc+1 are in memory: if their big-endian word decodes to i,
step is exec i on the state with pc + 2 and nothing else changed; if it is unknown, the step still leaves pc + 2.
(Stated: R135.) -/
def Obligations.StepExecutesTheDecodedInstruction : Prop :=
  ∀ s : State, s.Ready → s.pc.toNat + 1 < 4096 →
    let w : Word := s.mem.read s.pc.toNat ++ s.mem.read (s.pc.toNat + 1)
    (∀ i, decode w = .ok i → step s = exec i (s.setPc (s.pc + 2#16))) ∧
      (∀ r, decode w = .error r → ∃ t, step s = .next t ∧ t.pc = s.pc + 2#16)

/-- If run = Halted(e), step answers the same state and the step transaction returns Error(e). (Stated: R132.) -/
def Obligations.HaltedStepReportsTheError : Prop :=
  ∀ (s : State) (e : CoreError), s.run = .halted e →
    step s = .next s ∧ transact .step s = .next (.status (.error e), s)

/-- In a ready state with pc >= 0xFFF the step halts with OutOfBounds(pc) if pc >= 4096 and OutOfBounds(0x1000) otherwise,
and changes nothing but run; with pc < 0xFFF the fetch gives a word. The payload and the unadvanced pc are the spec's
decisions D4 and D5 (log entry 16). (Derived: 20_memory.md section 3 (fetch), 40_pipeline.md section 2 (fetch),
92_eei_decisions.md D4, D5.) -/
def Obligations.FetchFailsAtTheFirstInvalidAddress : Prop :=
  ∀ s : State, s.Ready →
    (0xFFF ≤ s.pc.toNat → ∃ t, step s = .next t ∧
      t.run = .halted (.outOfBounds (if 0x1000 ≤ s.pc.toNat then s.pc else 0x1000#16)) ∧ OnlyChanges [.run] s t) ∧
      (s.pc.toNat < 0xFFF → ∃ w, fetch s = .ok w)

/-- In a ready state whose fetched word w does not decode, the step halts with UnknownOpcode(w, fa), leaves pc = fa + 2
and changes nothing else. Where pc stands and the payload are the spec's decisions D4 and D5 (log entry 16). (Derived:
40_pipeline.md section 2 (decode), 60_exceptions.md section 1, 92_eei_decisions.md D4, D5.) -/
def Obligations.UnknownWordHalts : Prop :=
  ∀ (s : State) (w : Word) (r : Reject), s.Ready → fetch s = .ok w → decode w = .error r →
    ∃ t, step s = .next t ∧ t.run = .halted (.unknownOpcode w s.pc) ∧ t.pc = s.pc + 2#16 ∧ OnlyChanges [.run, .pc] s t

/-- If a step takes a Running core to Halted(e), no key wait was pending, only run and pc differ, pc is unchanged after a
fetch error and fa + 2 after any other, the status is Error(e), and e is not MemoryOverflow. The state after an error
is the spec's decision D4 (log entry 16). (Derived: 60_exceptions.md section 2 (errors are precise),
92_eei_decisions.md D4.) -/
def Obligations.ErrorsArePrecise : Prop :=
  ∀ (s t : State) (e : CoreError), s.run = .running → step s = .next t → t.run = .halted e →
    s.wait = none ∧ OnlyChanges [.run, .pc] s t ∧ (0xFFF ≤ s.pc.toNat → t.pc = s.pc) ∧
      (s.pc.toNat < 0xFFF → t.pc = s.pc + 2#16) ∧ t.status = .error e ∧
      ∀ offset len, e ≠ .memoryOverflow offset len

/-- After any list of transactions on a core Halted with e, all of them complete, the core is still Halted with e and only
mem, keys, DT and ST may differ. That the host may still act is the spec's decisions D22, D23 and D26 (log entry 17).
(Derived: 60_exceptions.md section 2 (no return from an error), 92_eei_decisions.md D22, D23, D26.) -/
def Obligations.HaltedIsTerminal : Prop :=
  ∀ (ts : List Transaction) (s : State) (e : CoreError), s.run = .halted e →
    ∃ a u, transactAll ts s = .next (a, u) ∧ u.run = .halted e ∧ OnlyChanges [.mem, .keys, .dt, .st] s u

/-- In a Running state with a key wait pending, the step transaction returns AwaitingKey and the same state; after any
list of transactions with no notify_key, only mem, keys, DT and ST may differ. The wait mechanics are the spec's
decision D18 (log entry 18). (Derived: 40_pipeline.md section 2 (key wait), 60_exceptions.md section 7 (wait state),
70_reset_and_hazards.md section 3, 92_eei_decisions.md D18.) -/
def Obligations.KeyWaitHoldsUntilNotified : Prop :=
  ∀ (ts : List Transaction) (s : State) (x : RegIdx), s.run = .running → s.wait = some x →
    (∀ k, Transaction.notifyKey k ∉ ts) →
    transact .step s = .next (.status .awaitingKey, s) ∧
      ∃ a u, transactAll ts s = .next (a, u) ∧ OnlyChanges [.mem, .keys, .dt, .st] s u

/-- Unless KEY_INDEX_OOR = Refuse, step answers a next state from every state; and if it ever refuses, it refuses a key
index above 0xF under that parameter. The value free of the parameter is the model's choice (log entry 2). (Derived:
40_pipeline.md section 2 (whole step), 44_draw_input.md section 2 (SKP, SKNP), 92_eei_decisions.md D17.) -/
def Obligations.StepAlwaysAnswersANextState : Prop :=
  ∀ s : State,
    (s.params.keyIndexOor ≠ .refuse → ∃ t, step s = .next t) ∧
      (∀ r, step s = .refused r →
        s.params.keyIndexOor = .refuse ∧ ∃ k, r = .keyIndexOutOfRange k ∧ 0xF < k.toNat)

/-- In every state, each of SYS under Nop, CLS, JP, both SE and SNE, all of arithmetic and logic, RND, LD I, ADD I, LD F,
JP V0, LD Vx,K, the timer loads, and SKP and SKNP (unless refused) answers a next state with run unchanged. (Derived:
60_exceptions.md section 1 (instructions that can raise no error).) -/
def Obligations.NoErrorInstructionsComplete : Prop :=
  ∀ (s : State) (i : Instr), CannotFail s i → ∃ t, exec i s = .next t ∧ t.run = s.run

/-- Under SYS_MODE = Nop, SYS nnn answers the same state. Under Halt it halts with UnknownOpcode(word, fa), fa being pc -
2 in the execute phase, and changes nothing but run. SYS and its modes are the spec's decision D2 (log entries 1 and
11). (Derived: 41_control_flow.md section 2 (SYS), 92_eei_decisions.md D2.) -/
def Obligations.SysFollowsItsMode : Prop :=
  ∀ (s : State) (nnn : Addr12),
    (s.params.sysMode = .nop → exec (.sys nnn) s = .next s) ∧
      (s.params.sysMode = .halt → ∃ t, exec (.sys nnn) s = .next t ∧
        t.run = .halted (.unknownOpcode (encode (.sys nnn)) (s.pc - 2#16)) ∧ OnlyChanges [.run] s t)

/-- The word 00E0 decodes to CLS; CLS answers a state with every pixel false and only the display changed, which is the
same state if the display was clear; a ready core with bytes 00 E0 at 0x200 = pc steps to pc = 0x202 with every pixel
false. (Stated: R164.) -/
def Obligations.ClsClearsTheDisplay : Prop :=
  decode 0x00E0#16 = .ok .cls ∧
    ∀ s : State,
      (∃ t, exec .cls s = .next t ∧ (∀ r c, t.disp.pixel r c = false) ∧ OnlyChanges [.disp] s t ∧
        ((∀ r c, s.disp.pixel r c = false) → t = s)) ∧
      (s.Ready → s.pc = 0x200#16 → s.mem.read 0x200 = 0x00#8 → s.mem.read 0x201 = 0xE0#8 →
        ∃ t, step s = .next t ∧ t.pc = 0x202#16 ∧ ∀ r c, t.disp.pixel r c = false)

/-- The word 1nnn decodes to JP nnn; JP answers a state with pc = nnn and only pc changed; the fetch there fails with
OutOfBounds(0x1000) exactly for nnn = 0xFFF, odd targets included; a ready core that fetches JP to its own pc steps to
the same state. (Stated: R166.) -/
def Obligations.JpSetsPc : Prop :=
  ∀ nnn : Addr12, decode (0x1#4 ++ nnn) = .ok (.jp nnn) ∧
    ∀ s : State,
      (∃ t, exec (.jp nnn) s = .next t ∧ t.pc.toNat = nnn.toNat ∧ OnlyChanges [.pc] s t ∧
        (nnn = 0xFFF#12 → fetch t = .error (.outOfBounds 0x1000#16)) ∧ (nnn ≠ 0xFFF#12 → ∃ w, fetch t = .ok w)) ∧
      (s.Ready → s.pc.toNat = nnn.toNat → fetch s = .ok (0x1#4 ++ nnn) → step s = .next s)

/-- With depth below 16, CALL nnn pushes the pc it sees (the address of the next instruction) on top of the stack, sets pc
= nnn and changes nothing else; at depth 16 it halts with StackOverflow(fa), fa being pc - 2, and changes only run.
The payload is the spec's decision D5 (log entry 16). (Derived: 41_control_flow.md sections 1 and 2 (push, CALL),
92_eei_decisions.md D5.) -/
def Obligations.CallPushesTheReturnAddress : Prop :=
  ∀ (s : State) (nnn : Addr12),
    (s.stack.length < 16 → ∃ t, exec (.call nnn) s = .next t ∧ t.stack = s.pc :: s.stack ∧ t.pc.toNat = nnn.toNat ∧
      OnlyChanges [.stack, .pc] s t) ∧
      (s.stack.length = 16 → ∃ t, exec (.call nnn) s = .next t ∧ t.run = .halted (.stackOverflow (s.pc - 2#16)) ∧
        OnlyChanges [.run] s t)

/-- With a top entry a, RET sets pc = a, removes the entry and changes nothing else; on an empty stack it halts with
StackUnderflow(fa) and changes only run; and RET run on any state with the stack a CALL left gives back the caller's
stack and the address after the CALL. The payload is the spec's decision D5 (log entry 16). (Derived:
41_control_flow.md sections 1 and 2 (pop, RET), 95_test_vectors.md W6, 92_eei_decisions.md D5.) -/
def Obligations.RetPopsTheReturnAddress : Prop :=
  (∀ (s : State) (a : Word) (rest : List Word), s.stack = a :: rest →
      ∃ t, exec .ret s = .next t ∧ t.pc = a ∧ t.stack = rest ∧ OnlyChanges [.stack, .pc] s t) ∧
    (∀ s : State, s.stack = [] → ∃ t, exec .ret s = .next t ∧ t.run = .halted (.stackUnderflow (s.pc - 2#16)) ∧
      OnlyChanges [.run] s t) ∧
    (∀ (s t u : State) (nnn : Addr12), s.stack.length < 16 → exec (.call nnn) s = .next t → u.stack = t.stack →
      ∃ v, exec .ret u = .next v ∧ v.pc = s.pc ∧ v.stack = s.stack)

/-- SE Vx,nn adds 2 to pc exactly when Vx = nn and SNE Vx,nn exactly when Vx != nn; nothing else changes. The semantics
are the spec's general knowledge (log entry 8). (Derived: 41_control_flow.md section 2 (SE Vx, nn and SNE Vx, nn),
93_implementation_defined.md G13.) -/
def Obligations.ImmediateSkips : Prop :=
  ∀ (s : State) (x : RegIdx) (nn : Byte),
    (∃ t, exec (.seImm x nn) s = .next t ∧ t.pc = (if s.readV x = nn then s.pc + 2#16 else s.pc) ∧
      OnlyChanges [.pc] s t) ∧
      (∃ t, exec (.sneImm x nn) s = .next t ∧ t.pc = (if s.readV x = nn then s.pc else s.pc + 2#16) ∧
        OnlyChanges [.pc] s t)

/-- SE Vx,Vy adds 2 to pc exactly when Vx = Vy and SNE Vx,Vy exactly when they differ; nothing else changes; so with x = y
the first always skips and the second never does. The semantics are the spec's general knowledge (log entry 8).
(Derived: 41_control_flow.md section 2 (SE Vx, Vy and SNE Vx, Vy), 93_implementation_defined.md G13.) -/
def Obligations.RegisterSkips : Prop :=
  ∀ (s : State) (x y : RegIdx),
    (∃ t, exec (.seReg x y) s = .next t ∧ t.pc = (if s.readV x = s.readV y then s.pc + 2#16 else s.pc) ∧
      OnlyChanges [.pc] s t ∧ (x = y → t.pc = s.pc + 2#16)) ∧
      (∃ t, exec (.sneReg x y) s = .next t ∧ t.pc = (if s.readV x = s.readV y then s.pc else s.pc + 2#16) ∧
        OnlyChanges [.pc] s t ∧ (x = y → t.pc = s.pc))

/-- JP V0,nnn sets pc to the number nnn + V0 under JPV0_MASK = None and to that sum modulo 4096 under Mask12, and changes
nothing else. The semantics are the spec's general knowledge and decision D13 (log entries 1 and 8). (Derived:
41_control_flow.md section 2 (JP V0, nnn), 92_eei_decisions.md D13, 93_implementation_defined.md G14.) -/
def Obligations.JumpV0Target : Prop :=
  ∀ (s : State) (nnn : Addr12), ∃ t, exec (.jpV0 nnn) s = .next t ∧ OnlyChanges [.pc] s t ∧
    (s.params.jpV0Mask = .none → t.pc.toNat = nnn.toNat + (s.readV 0x0#4).toNat) ∧
      (s.params.jpV0Mask = .mask12 → t.pc.toNat = (nnn.toNat + (s.readV 0x0#4).toNat) % 4096)

/-- In a ready state with fetch address fa = pc: a CALL pushes fa + 2 and goes to its target; a taken skip of each of the
six skip instructions leaves fa + 4; JP, JP V0 and RET leave exactly their target; JP to fa leaves pc = fa. When each
skip is taken and the target of JP V0 are the spec's general knowledge (log entry 8), its Mask12 case decision D13
(log entry 1). (Derived: 40_pipeline.md section 3 (consequences of the order), 41_control_flow.md sections 1 and 2,
44_draw_input.md section 2 (SKP Vx, SKNP Vx), 92_eei_decisions.md D13, 93_implementation_defined.md G12, G13, G14,
G23.) -/
def Obligations.AdvanceThenOverwrite : Prop :=
  ∀ (s : State) (w : Word), s.Ready → fetch s = .ok w →
    (∀ nnn, decode w = .ok (.call nnn) → s.stack.length < 16 →
      ∃ t, step s = .next t ∧ t.stack = (s.pc + 2#16) :: s.stack ∧ t.pc.toNat = nnn.toNat) ∧
    (∀ x nn, decode w = .ok (.seImm x nn) → s.readV x = nn → ∃ t, step s = .next t ∧ t.pc = s.pc + 4#16) ∧
    (∀ x nn, decode w = .ok (.sneImm x nn) → s.readV x ≠ nn → ∃ t, step s = .next t ∧ t.pc = s.pc + 4#16) ∧
    (∀ x y, decode w = .ok (.seReg x y) → s.readV x = s.readV y → ∃ t, step s = .next t ∧ t.pc = s.pc + 4#16) ∧
    (∀ x y, decode w = .ok (.sneReg x y) → s.readV x ≠ s.readV y → ∃ t, step s = .next t ∧ t.pc = s.pc + 4#16) ∧
    (∀ x, decode w = .ok (.skp x) → ∀ k : Nibble, (s.readV x).toNat = k.toNat → s.keyDown k = true →
      ∃ t, step s = .next t ∧ t.pc = s.pc + 4#16) ∧
    (∀ x, decode w = .ok (.sknp x) → ∀ k : Nibble, (s.readV x).toNat = k.toNat → s.keyDown k = false →
      ∃ t, step s = .next t ∧ t.pc = s.pc + 4#16) ∧
    (∀ nnn, decode w = .ok (.jp nnn) →
      ∃ t, step s = .next t ∧ t.pc.toNat = nnn.toNat ∧ (nnn.toNat = s.pc.toNat → t.pc = s.pc)) ∧
    (∀ nnn, decode w = .ok (.jpV0 nnn) →
      ∃ t, step s = .next t ∧ t.pc.toNat = (if s.params.jpV0Mask = .none then nnn.toNat + (s.readV 0x0#4).toNat
        else (nnn.toNat + (s.readV 0x0#4).toNat) % 4096)) ∧
    (∀ a rest, decode w = .ok .ret → s.stack = a :: rest → ∃ t, step s = .next t ∧ t.pc = a)

/-- For all registers x and y and bytes b: after b is written to Vx, Vx reads b; every other Vy reads as before; the write
changes only the register file. (Stated: R21.) -/
def Obligations.RegistersReadBack : Prop :=
  ∀ (s : State) (x : RegIdx) (b : Byte),
    (s.writeV x b).readV x = b ∧ OnlyRegs [x] s (s.writeV x b) ∧ OnlyChanges [.v] s (s.writeV x b)

/-- LD Vx,nn leaves Vx = nn, LD Vx,Vy leaves Vx = Vy, ADD Vx,nn leaves Vx = (Vx + nn) mod 256; no other register changes
(VF only if x = F) and nothing else changes. The semantics are the spec's general knowledge and decision D8 (log entry
8). (Derived: 42_arith_logic.md section 1 (LD Vx, nn; LD Vx, Vy; ADD Vx, nn), 92_eei_decisions.md D8,
93_implementation_defined.md G15.) -/
def Obligations.LoadsAndAddImmediate : Prop :=
  ∀ (s : State) (x y : RegIdx) (nn : Byte),
    (∃ t, exec (.ldImm x nn) s = .next t ∧ t.readV x = nn ∧ OnlyRegs [x] s t ∧ OnlyChanges [.v] s t) ∧
      (∃ t, exec (.ldReg x y) s = .next t ∧ t.readV x = s.readV y ∧ OnlyRegs [x] s t ∧ OnlyChanges [.v] s t) ∧
      (∃ t, exec (.addImm x nn) s = .next t ∧ (t.readV x).toNat = ((s.readV x).toNat + nn.toNat) % 256 ∧
        OnlyRegs [x] s t ∧ OnlyChanges [.v] s t)

/-- The word 8xy4 decodes to ADD Vx,Vy. With a, b the values of Vx and Vy before it, it completes, Vx = (a + b) mod 256
unless x = F, VF = 1 if a + b > 255 else 0, no other register and nothing else changes. That the flag wins when x = F
is the spec's decision D6 (log entry 22) and the encoding its general knowledge (log entry 7). (Derived:
42_arith_logic.md section 1 (write order; ADD Vx, Vy), 92_eei_decisions.md D6, 93_implementation_defined.md G8, G18.) -/
def Obligations.AddSetsCarry : Prop :=
  ∀ x y : RegIdx, decode (0x8#4 ++ x ++ y ++ 0x4#4) = .ok (.addReg x y) ∧
    ∀ s : State,
      let a := (s.readV x).toNat
      let b := (s.readV y).toNat
      ∃ t, exec (.addReg x y) s = .next t ∧ (x ≠ vf → (t.readV x).toNat = (a + b) % 256) ∧
        t.readV vf = (if 255 < a + b then 1#8 else 0#8) ∧ OnlyRegs [x, vf] s t ∧ OnlyChanges [.v] s t

/-- The word 8xy5 decodes to SUB Vx,Vy. With a, b the values of Vx and Vy before it, it completes, Vx = (a - b) mod 256
unless x = F, VF = 1 if a >= b else 0, no other register and nothing else changes. That the flag wins when x = F is
the spec's decision D6 (log entry 22) and the encoding its general knowledge (log entry 7). (Derived:
42_arith_logic.md section 1 (write order; SUB Vx, Vy), 92_eei_decisions.md D6, 93_implementation_defined.md G8, G18.) -/
def Obligations.SubSetsNoBorrow : Prop :=
  ∀ x y : RegIdx, decode (0x8#4 ++ x ++ y ++ 0x5#4) = .ok (.sub x y) ∧
    ∀ s : State,
      let a := (s.readV x).toNat
      let b := (s.readV y).toNat
      ∃ t, exec (.sub x y) s = .next t ∧ (x ≠ vf → (t.readV x).toNat = (256 + a - b) % 256) ∧
        t.readV vf = (if b ≤ a then 1#8 else 0#8) ∧ OnlyRegs [x, vf] s t ∧ OnlyChanges [.v] s t

/-- The word 8xy7 decodes to SUBN Vx,Vy. With a, b the values of Vx and Vy before it, it completes, Vx = (b - a) mod 256
unless x = F, VF = 1 if b >= a else 0, no other register and nothing else changes. That reversed means Vy - Vx is the
spec's own derivation (42_arith_logic.md, SUBN), that the flag wins when x = F its decision D6 (log entry 22), and the
encoding its general knowledge (log entry 7). (Derived: 42_arith_logic.md section 1 (write order; SUBN Vx, Vy),
92_eei_decisions.md D6, 93_implementation_defined.md G8, G18.) -/
def Obligations.SubnSetsNoBorrow : Prop :=
  ∀ x y : RegIdx, decode (0x8#4 ++ x ++ y ++ 0x7#4) = .ok (.subn x y) ∧
    ∀ s : State,
      let a := (s.readV x).toNat
      let b := (s.readV y).toNat
      ∃ t, exec (.subn x y) s = .next t ∧ (x ≠ vf → (t.readV x).toNat = (256 + b - a) % 256) ∧
        t.readV vf = (if a ≤ b then 1#8 else 0#8) ∧ OnlyRegs [x, vf] s t ∧ OnlyChanges [.v] s t

/-- Each of OR, AND, XOR leaves in every bit of Vx the bit operation of the old bits; under Keep no other register
changes, under Zero VF is 0 afterwards (also when x = F) and no third register changes; nothing but registers changes.
The semantics are the spec's general knowledge and decision D7 (log entries 1 and 8), the order when x = F its
decision D6 (log entry 22). (Derived: 42_arith_logic.md section 1 (OR, AND, XOR), 92_eei_decisions.md D6, D7,
93_implementation_defined.md G16.) -/
def Obligations.LogicFollowsLogicVf : Prop :=
  ∀ (s : State) (x y : RegIdx),
    let post := fun (f : Bool → Bool → Bool) (t : State) =>
      ((s.params.logicVf = .keep ∨ x ≠ vf) →
        ∀ k < 8, (t.readV x).getLsbD k = f ((s.readV x).getLsbD k) ((s.readV y).getLsbD k)) ∧
      (s.params.logicVf = .keep → OnlyRegs [x] s t) ∧
      (s.params.logicVf = .zero → t.readV vf = 0#8 ∧ OnlyRegs [x, vf] s t) ∧ OnlyChanges [.v] s t
    (∃ t, exec (.orReg x y) s = .next t ∧ post or t) ∧ (∃ t, exec (.andReg x y) s = .next t ∧ post and t) ∧
      (∃ t, exec (.xorReg x y) s = .next t ∧ post xor t)

/-- The words 8xy6 and 8xyE decode to SHR and SHL for every y. SHR leaves Vx / 2 in Vx and Vx mod 2 in VF, SHL leaves 2 *
Vx mod 256 in Vx and the old bit 7 in VF (the flag alone when x = F), whatever y is; no other register and nothing
else changes. That the flag wins when x = F is the spec's decision D6 (log entry 22) and the encodings its general
knowledge (log entry 7). (Derived: 42_arith_logic.md section 1 (write order; SHR Vx; SHL Vx), 92_eei_decisions.md D6,
D30, 93_implementation_defined.md G8, G18.) -/
def Obligations.ShiftsUseVxAndTheShiftedOutBit : Prop :=
  ∀ x y : RegIdx, decode (0x8#4 ++ x ++ y ++ 0x6#4) = .ok (.shr x y) ∧ decode (0x8#4 ++ x ++ y ++ 0xE#4) = .ok (.shl x y) ∧
    ∀ s : State,
      let v := (s.readV x).toNat
      (∃ t, exec (.shr x y) s = .next t ∧ (x ≠ vf → (t.readV x).toNat = v / 2) ∧ (t.readV vf).toNat = v % 2 ∧
        OnlyRegs [x, vf] s t ∧ OnlyChanges [.v] s t) ∧
      (∃ t, exec (.shl x y) s = .next t ∧ (x ≠ vf → (t.readV x).toNat = 2 * v % 256) ∧ (t.readV vf).toNat = v / 128 ∧
        OnlyRegs [x, vf] s t ∧ OnlyChanges [.v] s t)

/-- RND Vx,nn leaves the oracle's next byte AND nn in Vx, so no bit outside nn is set; no other register changes, and
nothing else but the count of draws, which goes up by one. It holds whatever the draw; the counter is the model's own
(log entries 3 and 4). (Derived: 42_arith_logic.md section 1 (RND Vx, nn), 92_eei_decisions.md D25.) -/
def Obligations.RndMasksAFreeDraw : Prop :=
  ∀ (s : State) (x : RegIdx) (nn : Byte),
    ∃ t, exec (.rnd x nn) s = .next t ∧ t.readV x = Config.rngDraw s.freeCount &&& nn ∧ t.readV x &&& ~~~nn = 0#8 ∧
      OnlyRegs [x] s t ∧ OnlyChanges [.v, .freeCount] s t ∧ t.freeCount = s.freeCount + 1

/-- LD I,nnn leaves I = nnn, ADD I,Vx leaves I = (I + Vx) mod 4096 with VF untouched, LD F,Vx leaves I = 0x050 + 5 * (Vx
mod 16); nothing else changes. The semantics are the spec's general knowledge and decisions D9 and D10 (log entries 6
and 8). (Derived: 43_memory_index.md section 2 (LD I, ADD I, LD F), 92_eei_decisions.md D9, D10,
93_implementation_defined.md G19.) -/
def Obligations.IndexRegisterLoads : Prop :=
  ∀ (s : State) (nnn : Addr12) (x : RegIdx),
    (∃ t, exec (.ldI nnn) s = .next t ∧ t.i.toNat = nnn.toNat ∧ OnlyChanges [.i] s t) ∧
      (∃ t, exec (.addI x) s = .next t ∧ t.i.toNat = (s.i.toNat + (s.readV x).toNat) % 4096 ∧ OnlyChanges [.i] s t) ∧
      (∃ t, exec (.ldF x) s = .next t ∧ t.i.toNat = 0x050 + 5 * ((s.readV x).toNat % 16) ∧ OnlyChanges [.i] s t)

/-- With I + 3 <= 4096, LD B,Vx leaves at I, I+1, I+2 the hundreds, tens and units of Vx, and every other byte and
component as before; with I at most 0xFFF and I + 3 > 4096 it halts with OutOfBounds(0x1000) and changes only run. The
semantics are the spec's general knowledge and decision D12 (log entries 8 and 19). (Derived: 43_memory_index.md
sections 1 and 2 (check, LD B), 92_eei_decisions.md D12, 93_implementation_defined.md G19.) -/
def Obligations.LdBStoresDecimalDigits : Prop :=
  ∀ (s : State) (x : RegIdx), s.mem.wf = true → s.i.toNat ≤ 0xFFF →
    (s.base + 3 ≤ 4096 → ∃ t, exec (.ldB x) s = .next t ∧
      (t.mem.read s.base).toNat = (s.readV x).toNat / 100 ∧
      (t.mem.read (s.base + 1)).toNat = (s.readV x).toNat / 10 % 10 ∧
      (t.mem.read (s.base + 2)).toNat = (s.readV x).toNat % 10 ∧ OnlyBytes s.base 3 s t ∧ OnlyChanges [.mem] s t) ∧
    (4096 < s.base + 3 → ∃ t, exec (.ldB x) s = .next t ∧ t.run = .halted (.outOfBounds 0x1000#16) ∧
      OnlyChanges [.run] s t)

/-- With I + x + 1 <= 4096, LD [I],Vx leaves each Vr with r <= x at address I + r, every other byte as before, and I
unchanged under MEM_I_INCREMENT = None or (I + x + 1) mod 4096 under XPlus1; else, with I at most 0xFFF, it halts with
OutOfBounds(0x1000) and changes only run. The semantics are the spec's general knowledge and decisions D11 and D12
(log entries 1, 8 and 19). (Derived: 43_memory_index.md sections 1 and 2 (check, LD [I], Vx), 92_eei_decisions.md D11,
D12, 93_implementation_defined.md G19.) -/
def Obligations.StoreRegistersAtI : Prop :=
  ∀ (s : State) (x : RegIdx), s.mem.wf = true → s.i.toNat ≤ 0xFFF →
    (s.base + x.toNat + 1 ≤ 4096 → ∃ t, exec (.ldMemVx x) s = .next t ∧
      (∀ r : RegIdx, r ≤ x → t.mem.read (s.base + r.toNat) = s.readV r) ∧ OnlyBytes s.base (x.toNat + 1) s t ∧
      (s.params.memIIncrement = .none → t.i = s.i) ∧
      (s.params.memIIncrement = .xPlus1 → t.i.toNat = (s.i.toNat + x.toNat + 1) % 4096) ∧ OnlyChanges [.mem, .i] s t) ∧
    (4096 < s.base + x.toNat + 1 → ∃ t, exec (.ldMemVx x) s = .next t ∧ t.run = .halted (.outOfBounds 0x1000#16) ∧
      OnlyChanges [.run] s t)

/-- With I + x + 1 <= 4096, LD Vx,[I] leaves in each Vr with r <= x the byte at I + r, every other register as before, and
I unchanged under MEM_I_INCREMENT = None or (I + x + 1) mod 4096 under XPlus1; else, with I at most 0xFFF, it halts
with OutOfBounds(0x1000) and changes only run. The semantics are the spec's general knowledge and decisions D11 and
D12 (log entries 1, 8 and 19). (Derived: 43_memory_index.md sections 1 and 2 (check, LD Vx, [I]), 92_eei_decisions.md
D11, D12, 93_implementation_defined.md G19.) -/
def Obligations.LoadRegistersFromI : Prop :=
  ∀ (s : State) (x : RegIdx), s.i.toNat ≤ 0xFFF →
    (s.base + x.toNat + 1 ≤ 4096 → ∃ t, exec (.ldVxMem x) s = .next t ∧
      (∀ r : RegIdx, t.readV r = if r ≤ x then s.mem.read (s.base + r.toNat) else s.readV r) ∧
      (s.params.memIIncrement = .none → t.i = s.i) ∧
      (s.params.memIIncrement = .xPlus1 → t.i.toNat = (s.i.toNat + x.toNat + 1) % 4096) ∧ OnlyChanges [.v, .i] s t) ∧
    (4096 < s.base + x.toNat + 1 → ∃ t, exec (.ldVxMem x) s = .next t ∧ t.run = .halted (.outOfBounds 0x1000#16) ∧
      OnlyChanges [.run] s t)

/-- After LD [I],Vx that fits in memory, LD Vx,[I] run on any state with that memory and the I of the store completes,
gives V0 to Vx the values they had at the store and leaves the others. The semantics are the spec's general knowledge
(log entry 8). (Derived: 43_memory_index.md section 2 (LD [I], Vx and LD Vx, [I]), 93_implementation_defined.md G19.) -/
def Obligations.LoadAfterStoreRestoresRegisters : Prop :=
  ∀ (s t u : State) (x : RegIdx), s.mem.wf = true → s.base + x.toNat + 1 ≤ 4096 → exec (.ldMemVx x) s = .next t →
    u.mem = t.mem → u.i = s.i →
    ∃ w, exec (.ldVxMem x) u = .next w ∧ ∀ r : RegIdx, w.readV r = if r ≤ x then s.readV r else u.readV r

/-- For every sprite of at most 15 rows, coordinates, edge policy and display: after draw_sprite each pixel is its old
value XOR whether a 1 bit of the sprite lands on it (spriteLights). Clip is the spec's parameter value of decision D15
(log entry 1). (Derived: 44_draw_input.md section 1 (display XOR engine, pixel order, edge policy), 90_conflicts.md
C2, 92_eei_decisions.md D15.) -/
def Obligations.SpriteXorsEachPixel : Prop :=
  ∀ (edge : DrawEdge) (x y : Byte) (rows : List Byte) (d : Display) (r : Fin 32) (c : Fin 64), rows.length ≤ 15 →
    (drawSprite edge x y rows d).1.pixel r c =
      (d.pixel r c ^^ spriteLights edge x y rows.length (fun k => rows.getD k 0#8) r c)

/-- For every sprite of at most 15 rows, under either edge policy, the flag draw_sprite returns is true exactly when some
pixel was lit before and is off after, so a pixel turned on and a clipped bit are no collision; and it is DRW that
writes the flag, 1 or 0, to VF. (Stated: R284.) -/
def Obligations.CollisionIsALitPixelTurnedOff : Prop :=
  (∀ (edge : DrawEdge) (x y : Byte) (rows : List Byte) (d : Display), rows.length ≤ 15 →
      ((drawSprite edge x y rows d).2 = true ↔
        ∃ r c, d.pixel r c = true ∧ (drawSprite edge x y rows d).1.pixel r c = false)) ∧
    (∀ (s : State) (x y : RegIdx) (n : Nibble), s.base + n.toNat ≤ 4096 → ∃ t, exec (.drw x y n) s = .next t ∧
      t.readV vf = (if (drawSprite s.params.drawEdge (s.readV x) (s.readV y) (s.mem.readList s.base n.toNat) s.disp).2
        then 1#8 else 0#8))

/-- For every sprite of at most 15 rows: drawing it on the display it left gives the first display back, and the second
draw collides exactly when the first one turned some pixel on. (Derived: 95_test_vectors.md W7, 44_draw_input.md
section 1.) -/
def Obligations.DrawingTwiceRestoresTheDisplay : Prop :=
  ∀ (edge : DrawEdge) (x y : Byte) (rows : List Byte) (d : Display), rows.length ≤ 15 →
    let once := (drawSprite edge x y rows d).1
    (drawSprite edge x y rows once).1 = d ∧
      ((drawSprite edge x y rows once).2 = true ↔ ∃ r c, d.pixel r c = false ∧ once.pixel r c = true)

/-- With n = 0 or I + n <= 4096, DRW XORs onto each pixel the bit of the n bytes from I that lands there, leaves VF = 1 if
a lit pixel went off and 0 else, and changes no other register and nothing else; with n >= 1, I at most 0xFFF and I +
n > 4096 it halts with OutOfBounds(0x1000) and changes only run. The check before drawing, n = 0 and Clip are the
spec's decisions D12, D16 and D15 (log entries 1 and 19). (Derived: 44_draw_input.md section 2 (DRW Vx, Vy, n),
92_eei_decisions.md D12, D15, D16.) -/
def Obligations.DrwDrawsAndSetsVf : Prop :=
  ∀ (s : State) (x y : RegIdx) (n : Nibble), s.i.toNat ≤ 0xFFF →
    (n = 0#4 ∨ s.base + n.toNat ≤ 4096 → ∃ t, exec (.drw x y n) s = .next t ∧
      (∀ r c, t.disp.pixel r c = (s.disp.pixel r c ^^ spriteLights s.params.drawEdge (s.readV x) (s.readV y) n.toNat
        (fun k => s.mem.read (s.base + k)) r c)) ∧
      ((∃ r c, s.disp.pixel r c = true ∧ t.disp.pixel r c = false) → t.readV vf = 1#8) ∧
      ((¬ ∃ r c, s.disp.pixel r c = true ∧ t.disp.pixel r c = false) → t.readV vf = 0#8) ∧
      OnlyRegs [vf] s t ∧ OnlyChanges [.disp, .v] s t) ∧
    (n ≠ 0#4 → 4096 < s.base + n.toNat → ∃ t, exec (.drw x y n) s = .next t ∧
      t.run = .halted (.outOfBounds 0x1000#16) ∧ OnlyChanges [.run] s t)

/-- For Vx at most 0xF, and under MaskLow4 for every Vx by its low 4 bits, SKP skips exactly when that key is down and
SKNP exactly when it is up; only pc changes. Above 0xF: under NotPressed the key counts as up; under Refuse both are
refused by name; under free, the model's own value (log entry 2), either result may come and one free value is taken.
The senses are the spec's general knowledge (log entry 8). (Derived: 44_draw_input.md section 2 (SKP Vx, SKNP Vx),
92_eei_decisions.md D17, 93_implementation_defined.md G23.) -/
def Obligations.KeySkips : Prop :=
  ∀ (s : State) (x : RegIdx),
    let k := s.readV x
    let low := s.keyDown (k.setWidth 4)
    (k ≤ 0x0F#8 ∨ s.params.keyIndexOor = .maskLow4 →
      (∃ t, exec (.skp x) s = .next t ∧ t.pc = (if low then s.pc + 2#16 else s.pc) ∧ OnlyChanges [.pc] s t) ∧
      (∃ t, exec (.sknp x) s = .next t ∧ t.pc = (if low then s.pc else s.pc + 2#16) ∧ OnlyChanges [.pc] s t)) ∧
    (0x0F#8 < k → s.params.keyIndexOor = .notPressed →
      exec (.skp x) s = .next s ∧ ∃ t, exec (.sknp x) s = .next t ∧ t.pc = s.pc + 2#16 ∧ OnlyChanges [.pc] s t) ∧
    (0x0F#8 < k → s.params.keyIndexOor = .refuse →
      exec (.skp x) s = .refused (.keyIndexOutOfRange k) ∧ exec (.sknp x) s = .refused (.keyIndexOutOfRange k)) ∧
    (0x0F#8 < k → s.params.keyIndexOor = .free → ∀ i ∈ [Instr.skp x, Instr.sknp x],
      ∃ t, exec i s = .next t ∧ (t.pc = s.pc ∨ t.pc = s.pc + 2#16) ∧ OnlyChanges [.pc, .freeCount] s t ∧
        t.freeCount = s.freeCount + 1)

/-- LD Vx,K answers a state with wait = Some(x), pc unchanged under KEYWAIT_PC = PostAdvance or back by 2 under
AtInstruction, and nothing else changed; on a Running core the status is then AwaitingKey. The mechanics are the
spec's decisions D18 and D19 (log entries 1 and 18). (Derived: 44_draw_input.md section 2 (LD Vx, K),
92_eei_decisions.md D18, D19.) -/
def Obligations.KeyWaitBegins : Prop :=
  ∀ (s : State) (x : RegIdx), ∃ t, exec (.ldVxK x) s = .next t ∧ t.wait = some x ∧
    (s.params.keywaitPc = .postAdvance → t.pc = s.pc) ∧ (s.params.keywaitPc = .atInstruction → t.pc = s.pc - 2#16) ∧
    OnlyChanges [.wait, .pc] s t ∧ (s.run = .running → t.status = .awaitingKey)

/-- With a wait pending for x on a Running core, notify_key(k) leaves Vx = k, no wait, pc moved by 2 only under
AtInstruction, and nothing else changed; in any other state it changes nothing. set_keys makes each key what its
vector says and changes nothing else. These are the spec's decisions D18, D19 and D26 (log entries 17 and 18).
(Derived: 44_draw_input.md section 3 (notify_key, set_keys), 92_eei_decisions.md D18, D19, D26.) -/
def Obligations.KeyTransactions : Prop :=
  (∀ (s : State) (x : RegIdx) (k : Nibble), s.run = .running → s.wait = some x →
      ∃ u, transact (.notifyKey k) s = .next (.nothing, u) ∧ (u.readV x).toNat = k.toNat ∧ u.wait = none ∧
        u.pc = (if s.params.keywaitPc = .atInstruction then s.pc + 2#16 else s.pc) ∧ OnlyRegs [x] s u ∧
        OnlyChanges [.v, .wait, .pc] s u) ∧
    (∀ (s : State) (k : Nibble), s.run ≠ .running ∨ s.wait = none → transact (.notifyKey k) s = .next (.nothing, s)) ∧
    (∀ (s : State) (ks : Vector Bool 16), ∃ u, transact (.setKeys ks) s = .next (.nothing, u) ∧
      (∀ k : Nibble, u.keyDown k = ks.get (Fin.ofNat 16 k.toNat)) ∧ OnlyChanges [.keys] s u)

/-- LD DT,Vx leaves DT = Vx, LD ST,Vx leaves ST = Vx, LD Vx,DT leaves Vx = DT; nothing else changes. The encodings and LD
Vx,DT are the spec's general knowledge (log entries 7 and 8). (Derived: 45_timers.md section 1,
93_implementation_defined.md G24.) -/
def Obligations.TimerLoads : Prop :=
  ∀ (s : State) (x : RegIdx),
    (∃ t, exec (.ldDtVx x) s = .next t ∧ t.dt = s.readV x ∧ OnlyChanges [.dt] s t) ∧
      (∃ t, exec (.ldStVx x) s = .next t ∧ t.st = s.readV x ∧ OnlyChanges [.st] s t) ∧
      (∃ t, exec (.ldVxDt x) s = .next t ∧ t.readV x = s.dt ∧ OnlyRegs [x] s t ∧ OnlyChanges [.v] s t)

/-- In every state, Halted and waiting ones included, timer_tick leaves DT - 1 and ST - 1, or 0 where the timer was 0, and
changes nothing else. That it acts in every state is the spec's decision D22 (log entry 17). (Derived: 45_timers.md
section 2, 92_eei_decisions.md D22.) -/
def Obligations.TimerTickCountsDown : Prop :=
  ∀ s : State, ∃ u, transact .timerTick s = .next (.nothing, u) ∧ u.dt.toNat = s.dt.toNat - 1 ∧
    u.st.toNat = s.st.toNat - 1 ∧ OnlyChanges [.dt, .st] s u

/-- If offset + length > 4096, write answers MemoryOverflow(offset, length) and the same state; otherwise it answers Ok
and each byte k is at offset + k, every other byte and component as before (on memory in canonical form). (Stated:
R63, R348.) -/
def Obligations.HostWriteIsAllOrNothing : Prop :=
  ∀ (bytes : List Byte) (offset : Nat) (s : State),
    (4096 < offset + bytes.length →
      transact (.write bytes offset) s = .next (.rejected (.memoryOverflow offset bytes.length), s)) ∧
    (offset + bytes.length ≤ 4096 → s.mem.wf = true → ∃ u, transact (.write bytes offset) s = .next (.written, u) ∧
      (∀ k, k < bytes.length → bytes[k]? = some (u.mem.read (offset + k))) ∧ OnlyBytes offset bytes.length s u ∧
      OnlyChanges [.mem] s u)

/-- MemRead(a) gives the byte for a < 4096 and OutOfBounds(a) else; MemWrite(a, v) leaves v at a and every other byte and
component as before for a < 4096 (on memory in canonical form), and OutOfBounds(a) with no state else; a fetch whose
access fails, and an execute rule that ends in an access's error, halt the core with it. (Stated: R62.) -/
def Obligations.SingleByteAccess : Prop :=
  (∀ (s : State) (a : Word), a.toNat < 4096 → memRead s a = .ok (s.mem.read a.toNat)) ∧
    (∀ (s : State) (a : Word), 4096 ≤ a.toNat → memRead s a = .error (.outOfBounds a)) ∧
    (∀ (s : State) (a : Word) (b : Byte), a.toNat < 4096 → s.mem.wf = true → ∃ t, memWrite s a b = .ok t ∧
      t.mem.read a.toNat = b ∧ OnlyBytes a.toNat 1 s t ∧ OnlyChanges [.mem] s t) ∧
    (∀ (s : State) (a : Word) (b : Byte), 4096 ≤ a.toNat → memWrite s a b = .error (.outOfBounds a)) ∧
    (∀ (s : State) (e : CoreError), s.Ready → fetch s = .error e → ∃ t, step s = .next t ∧ t.run = .halted e) ∧
    (∀ (s : State) (e : CoreError), ∃ t, complete s (.error e) = .next t ∧ t.run = .halted e)

/-- The canonical form of memory is the model's own (log entry 13): two lists of cells in that form that read equal at
every address are equal. (Derived: 20_memory.md sections 1 and 4, 10_state.md section 1.) -/
def Obligations.EqualReadsEqualMemory : Prop :=
  ∀ m n : Memory, m.wf = true → n.wf = true → (∀ a, m.read a = n.read a) → m = n

/-- On memory in canonical form with pc at most 0xFFE, after a word is stored big-endian at pc the fetch gives that word,
and if it decodes to i the step is exec i on the advanced state; only the two bytes, run and wait can differ from the
state before. That this store also ends a halt or a wait is the model's own (log entry 15). (Derived: 20_memory.md
sections 3 and 6 (byte order, coherent fetch).) -/
def Obligations.StoredWordIsFetched : Prop :=
  ∀ (s : State) (w : Word), s.mem.wf = true → s.pc.toNat ≤ 0xFFE →
    fetch (placeFetchWord s w) = .ok w ∧
      (∀ i, decode w = .ok i → step (placeFetchWord s w) = exec i ((placeFetchWord s w).setPc (s.pc + 2#16))) ∧
      OnlyBytes s.pc.toNat 2 s (placeFetchWord s w) ∧ OnlyChanges [.mem, .run, .wait] s (placeFetchWord s w)

/-- For every instruction but CALL and RET, running it with any other call stack gives the same outcome with that stack in
place of the old one; and CALL and RET leave every byte of memory alone. (Stated: R29.) -/
def Obligations.StackIsSeenOnlyByCallAndRet : Prop :=
  (∀ (i : Instr) (s : State) (st : List Word), (∀ nnn, i ≠ .call nnn) → i ≠ .ret →
      exec i (s.setStack st) = mapNext (fun t => t.setStack st) (exec i s)) ∧
    (∀ (i : Instr) (s t : State), (∃ nnn, i = .call nnn) ∨ i = .ret → exec i s = .next t →
      ∀ a, t.mem.read a = s.mem.read a)

/-- For every instruction but CLS and DRW, running it with any other display gives the same outcome with that display in
place; CLS gives the same outcome whatever the display; CLS and DRW leave every byte of memory alone; the display read
returns the display and changes nothing. (Stated: R31.) -/
def Obligations.DisplayIsSeenOnlyByClsAndDrw : Prop :=
  (∀ (i : Instr) (s : State) (d : Display), i ≠ .cls → (∀ x y n, i ≠ .drw x y n) →
      exec i (s.setDisp d) = mapNext (fun t => t.setDisp d) (exec i s)) ∧
    (∀ (s : State) (d : Display), exec .cls (s.setDisp d) = exec .cls s) ∧
    (∀ (i : Instr) (s t : State), i = .cls ∨ (∃ x y n, i = .drw x y n) → exec i s = .next t →
      ∀ a, t.mem.read a = s.mem.read a) ∧
    (∀ (s : State) (y : Fin 32), transact .readDisplay s = .next (.display s.disp, s) ∧
      transact (.readRow y) s = .next (.row (s.disp.get y), s))

/-- Every instruction but the three timer loads gives, with other timer values, the same outcome with those values in
place; LD Vx,DT writes no timer and does not read ST; a step that changes a timer executed LD DT or LD ST; of the
other transactions only timer_tick changes a timer. (Stated: R142.) -/
def Obligations.TimersAreTouchedOnlyByTheirLoads : Prop :=
  (∀ (i : Instr) (s : State) (a b : Byte), (∀ x, i ≠ .ldDtVx x ∧ i ≠ .ldStVx x ∧ i ≠ .ldVxDt x) →
      exec i ((s.setDt a).setSt b) = mapNext (fun t => (t.setDt a).setSt b) (exec i s)) ∧
    (∀ (x : RegIdx) (s t : State) (b : Byte), exec (.ldVxDt x) s = .next t →
      t.dt = s.dt ∧ t.st = s.st ∧ exec (.ldVxDt x) (s.setSt b) = .next (t.setSt b)) ∧
    (∀ s t : State, step s = .next t → t.dt ≠ s.dt ∨ t.st ≠ s.st →
      ∃ w x, fetch s = .ok w ∧ (decode w = .ok (.ldDtVx x) ∨ decode w = .ok (.ldStVx x))) ∧
    (∀ (tr : Transaction) (s u : State) (a : Response), transact tr s = .next (a, u) →
      u.dt ≠ s.dt ∨ u.st ≠ s.st → tr = .step ∨ tr = .timerTick)

/-- The tone is on exactly when ST is greater than 0; the sound read returns ST and changes nothing; a transaction that
changes the tone is timer_tick or a step that executed LD ST,Vx. (Stated: R324.) -/
def Obligations.ToneSignalIsTheSoundTimer : Prop :=
  (∀ s : State, (toneOn s = true ↔ 0 < s.st.toNat) ∧ transact .readSound s = .next (.sound s.st, s)) ∧
    (∀ (tr : Transaction) (s u : State) (a : Response), transact tr s = .next (a, u) → toneOn u ≠ toneOn s →
      tr = .timerTick ∨ tr = .step ∧ ∃ w x, fetch s = .ok w ∧ decode w = .ok (.ldStVx x))

/-- If an instruction's execution changes register r, then the instruction may write r: its x for the loads and the ALU,
V0 to Vx for LD Vx,[I], VF for the flag writers and, under LOGIC_VF = Zero, for OR, AND and XOR. If a transaction
changes register r, it is a step that executed an instruction that may write r, or notify_key on a Running core with a
key wait pending for r. (Derived: 10_state.md section 2 (which instructions write a general register),
44_draw_input.md section 3 (notify_key), 92_eei_decisions.md D7, D8, D9.) -/
def Obligations.RegistersChangeOnlyByTheirWriters : Prop :=
  (∀ (i : Instr) (s t : State) (r : RegIdx), exec i s = .next t → t.readV r ≠ s.readV r → MayWrite s.params r i) ∧
    (∀ (tr : Transaction) (s u : State) (a : Response) (r : RegIdx), transact tr s = .next (a, u) →
      u.readV r ≠ s.readV r →
      (tr = .step ∧ s.Ready ∧ ∃ w i, fetch s = .ok w ∧ decode w = .ok i ∧ MayWrite s.params r i) ∨
        (s.run = .running ∧ s.wait = some r ∧ ∃ k, tr = .notifyKey k))

/-- No transaction changes the parameters and only set_keys changes the key vector; every instruction but SKP and SKNP
gives, with another key vector, the same outcome with that vector in place. The parameters in State are the model's
own (log entry 1). (Derived: 10_state.md section 8, 70_reset_and_hazards.md section 1, 92_eei_decisions.md D19, D21.) -/
def Obligations.KeysAndParametersStandStill : Prop :=
  (∀ (tr : Transaction) (s u : State) (a : Response), transact tr s = .next (a, u) →
      u.params = s.params ∧ (u.keys ≠ s.keys → ∃ ks, tr = .setKeys ks)) ∧
    (∀ (i : Instr) (s : State) (ks : Vector Bool 16), (∀ x, i ≠ .skp x ∧ i ≠ .sknp x) →
      exec i (s.setKeys ks) = mapNext (fun t => t.setKeys ks) (exec i s))
end

