-- ==== Sys2Proof/Laws/Decode.lean ====
section
/-! SUPPORT. The fields of a word and the words of fields, as numbers: every law about the encoding reduces to arithmetic on
them (30_encoding.md R91, R92). -/

namespace Sys2Proof

theorem append_toNat {m n : Nat} (a : BitVec m) (b : BitVec n) : (a ++ b).toNat = a.toNat * 2 ^ n + b.toNat := by
  rw [BitVec.toNat_append, Nat.shiftLeft_eq, Nat.mul_comm, ← Nat.two_pow_add_eq_or_of_lt b.isLt]

theorem wordXYN_toNat (op x y n : Nibble) :
    (wordXYN op x y n).toNat = op.toNat * 4096 + x.toNat * 256 + y.toNat * 16 + n.toNat := by
  have h1 : (wordXYN op x y n).toNat = _ := append_toNat (op ++ x ++ y) n
  have h2 : (op ++ x ++ y).toNat = _ := append_toNat (op ++ x) y
  have h3 : (op ++ x).toNat = _ := append_toNat op x
  rw [h1, h2, h3]; ring

theorem wordXB_toNat (op x : Nibble) (nn : Byte) :
    (wordXB op x nn).toNat = op.toNat * 4096 + x.toNat * 256 + nn.toNat := by
  have h1 : (wordXB op x nn).toNat = _ := append_toNat (op ++ x) nn
  have h2 : (op ++ x).toNat = _ := append_toNat op x
  rw [h1, h2]; ring

theorem wordA_toNat (op : Nibble) (nnn : Addr12) : (wordA op nnn).toNat = op.toNat * 4096 + nnn.toNat := by
  have h1 : (wordA op nnn).toNat = _ := append_toNat op nnn
  rw [h1]; norm_num

theorem wordOfBytes_toNat (hi lo : Byte) : (wordOfBytes hi lo).toNat = hi.toNat * 256 + lo.toNat := by
  have h1 : (wordOfBytes hi lo).toNat = _ := append_toNat hi lo
  rw [h1]; norm_num

theorem opField_toNat (w : Word) : (opField w).toNat = w.toNat / 4096 := by
  have := w.isLt; simp [opField, Nat.shiftRight_eq_div_pow]; omega

theorem xField_toNat (w : Word) : (xField w).toNat = w.toNat / 256 % 16 := by
  simp [xField, Nat.shiftRight_eq_div_pow]

theorem yField_toNat (w : Word) : (yField w).toNat = w.toNat / 16 % 16 := by
  simp [yField, Nat.shiftRight_eq_div_pow]

theorem nField_toNat (w : Word) : (nField w).toNat = w.toNat % 16 := by
  simp [nField]

theorem nnField_toNat (w : Word) : (nnField w).toNat = w.toNat % 256 := by
  simp [nnField]

theorem nnnField_toNat (w : Word) : (nnnField w).toNat = w.toNat % 4096 := by
  simp [nnnField]

theorem highByte_toNat (w : Word) : (highByte w).toNat = w.toNat / 256 := by
  have := w.isLt; simp [highByte, Nat.shiftRight_eq_div_pow]; omega

theorem lowByte_toNat (w : Word) : (lowByte w).toNat = w.toNat % 256 := by
  simp [lowByte]

/-- A word is the word of its two bytes, high byte first (R65). -/
theorem wordOfBytes_bytes (w : Word) : wordOfBytes (highByte w) (lowByte w) = w := by
  apply BitVec.eq_of_toNat_eq
  rw [wordOfBytes_toNat, highByte_toNat, lowByte_toNat]; omega

@[simp] theorem highByte_wordOfBytes (hi lo : Byte) : highByte (wordOfBytes hi lo) = hi := by
  apply BitVec.eq_of_toNat_eq
  rw [highByte_toNat, wordOfBytes_toNat]; omega

@[simp] theorem lowByte_wordOfBytes (hi lo : Byte) : lowByte (wordOfBytes hi lo) = lo := by
  apply BitVec.eq_of_toNat_eq
  rw [lowByte_toNat, wordOfBytes_toNat]; omega

section fields
variable (op x y n : Nibble) (nn : Byte) (nnn : Addr12)

@[simp] theorem opField_wordXYN : opField (wordXYN op x y n) = op := by
  apply BitVec.eq_of_toNat_eq; rw [opField_toNat, wordXYN_toNat]; omega
@[simp] theorem xField_wordXYN : xField (wordXYN op x y n) = x := by
  apply BitVec.eq_of_toNat_eq; rw [xField_toNat, wordXYN_toNat]; omega
@[simp] theorem yField_wordXYN : yField (wordXYN op x y n) = y := by
  apply BitVec.eq_of_toNat_eq; rw [yField_toNat, wordXYN_toNat]; omega
@[simp] theorem nField_wordXYN : nField (wordXYN op x y n) = n := by
  apply BitVec.eq_of_toNat_eq; rw [nField_toNat, wordXYN_toNat]; omega
@[simp] theorem opField_wordXB : opField (wordXB op x nn) = op := by
  apply BitVec.eq_of_toNat_eq; rw [opField_toNat, wordXB_toNat]; omega
@[simp] theorem xField_wordXB : xField (wordXB op x nn) = x := by
  apply BitVec.eq_of_toNat_eq; rw [xField_toNat, wordXB_toNat]; omega
@[simp] theorem nnField_wordXB : nnField (wordXB op x nn) = nn := by
  apply BitVec.eq_of_toNat_eq; rw [nnField_toNat, wordXB_toNat]; omega
@[simp] theorem opField_wordA : opField (wordA op nnn) = op := by
  apply BitVec.eq_of_toNat_eq; rw [opField_toNat, wordA_toNat]; omega
@[simp] theorem nnnField_wordA : nnnField (wordA op nnn) = nnn := by
  apply BitVec.eq_of_toNat_eq; rw [nnnField_toNat, wordA_toNat]; omega

end fields

/-- A word is format `XYN` of its fields. -/
theorem wordXYN_fields (w : Word) : wordXYN (opField w) (xField w) (yField w) (nField w) = w := by
  apply BitVec.eq_of_toNat_eq
  rw [wordXYN_toNat, opField_toNat, xField_toNat, yField_toNat, nField_toNat]; omega

/-- A word is format `XB` of its fields. -/
theorem wordXB_fields (w : Word) : wordXB (opField w) (xField w) (nnField w) = w := by
  apply BitVec.eq_of_toNat_eq
  rw [wordXB_toNat, opField_toNat, xField_toNat, nnField_toNat]; omega

/-- A word is format `A` of its fields. -/
theorem wordA_fields (w : Word) : wordA (opField w) (nnnField w) = w := by
  apply BitVec.eq_of_toNat_eq
  rw [wordA_toNat, opField_toNat, nnnField_toNat]; omega

end Sys2Proof
end

