-- ==== Sys2Proof/Laws/Display.lean ====
section
/-! SUPPORT. The display read back after its primitives. -/

namespace Sys2Proof.Machine

/-- Inverting one pixel leaves every other alone (R281). -/
theorem Display.pixel_toggle (d : Display) (r r' : Fin 32) (c c' : Fin 64) :
    (d.toggle r c).pixel r' c' = if r' = r ∧ c' = c then !d.pixel r c else d.pixel r' c' := by
  simp only [Display.pixel, Display.toggle, Vector.get_eq_getElem, Vector.getElem_set]
  by_cases hr : r = r'
  · subst hr
    by_cases hc : c = c'
    · subst hc; simp
    · simp [Fin.val_inj, hc, Ne.symm hc]
  · simp [Fin.val_inj, hr, Ne.symm hr]

@[simp] theorem Display.pixel_clear (r : Fin 32) (c : Fin 64) : Display.clear.pixel r c = false := by
  simp [Display.pixel, Display.clear, Vector.get_eq_getElem]

/-- A display is what its pixels read as. -/
theorem Display.ext_pixel {d e : Display} (h : ∀ r c, d.pixel r c = e.pixel r c) : d = e := by
  apply Vector.ext
  intro r hr
  apply Vector.ext
  intro c hc
  exact h ⟨r, hr⟩ ⟨c, hc⟩

/-- One sprite bit leaves the pixel as it was, or inverted where it lands (R281). -/
theorem drawBit_pixel (edge : DrawEdge) (x y : Byte) (r c : Nat) (bit : Bool) (acc : Display × Bool)
    (r' : Fin 32) (c' : Fin 64) :
    (drawBit edge x y r c bit acc).1.pixel r' c' =
      (acc.1.pixel r' c' ^^ (bit && !clipped edge x y r c && decide (r' = spriteRow y r ∧ c' = spriteCol x c))) := by
  unfold drawBit
  cases clipped edge x y r c <;> cases bit <;> simp [Display.pixel_toggle]
  by_cases hr : r' = spriteRow y r
  · by_cases hc : c' = spriteCol x c <;> simp [hr, hc]
  · simp [hr]

end Sys2Proof.Machine
end

