-- ==== Sys2Proof/Laws/Memory.lean ====
section
/-! SUPPORT. Memory's laws: a read after a write gives the value written, a write leaves every other address alone, and every
operation keeps the canonical form. -/

namespace Sys2Proof.Machine

@[simp] theorem Memory.wfFrom_cons {lo a : Nat} {v : Byte} {m : Memory} :
    Memory.wfFrom lo ((a, v) :: m) = true ↔
      lo ≤ a ∧ a < memSize ∧ v ≠ Memory.unlisted a ∧ Memory.wfFrom (a + 1) m = true := by
  simp [Memory.wfFrom, and_assoc]

theorem Memory.wfFrom_mono {m : Memory} {lo lo' : Nat} (h : lo' ≤ lo) (hm : Memory.wfFrom lo m = true) :
    Memory.wfFrom lo' m = true := by
  cases m with
  | nil => rfl
  | cons c m => obtain ⟨a, v⟩ := c; simp only [Memory.wfFrom_cons] at hm ⊢; exact ⟨by omega, hm.2⟩

/-- An address below every listed one reads as the reset contents. -/
theorem Memory.read_below {m : Memory} {lo a : Nat} (hm : Memory.wfFrom lo m = true) (h : a < lo) :
    Memory.read m a = Memory.unlisted a := by
  cases m with
  | nil => rfl
  | cons c m =>
    obtain ⟨b, v⟩ := c
    simp only [Memory.wfFrom_cons] at hm
    simp [Memory.read, show ¬ a = b by omega, show a < b by omega]

theorem Memory.insert_wfFrom {m : Memory} {lo a : Nat} {v : Byte} (hm : Memory.wfFrom lo m = true) (ha : a < memSize)
    (hlo : lo ≤ a) : Memory.wfFrom lo (Memory.insert m a v) = true := by
  induction m generalizing lo with
  | nil => by_cases h : v = Memory.unlisted a <;> simp [Memory.insert, Memory.wfFrom, h, hlo, ha]
  | cons c m ih =>
    obtain ⟨b, w⟩ := c
    have hc := Memory.wfFrom_cons.mp hm
    unfold Memory.insert
    split_ifs with h1 h2 h2 h3
    · exact hm
    · exact Memory.wfFrom_cons.mpr ⟨hlo, ha, h2, Memory.wfFrom_cons.mpr ⟨by omega, hc.2⟩⟩
    · exact Memory.wfFrom_mono (by omega) hc.2.2.2
    · exact Memory.wfFrom_cons.mpr ⟨hlo, ha, h3, by subst h2; exact hc.2.2.2⟩
    · exact Memory.wfFrom_cons.mpr ⟨hc.1, hc.2.1, hc.2.2.1, ih hc.2.2.2 (by omega)⟩

/-- Writing a byte keeps the canonical form. -/
theorem Memory.write_wf {m : Memory} (hm : m.wf = true) (a : Nat) (v : Byte) : (m.write a v).wf = true := by
  unfold Memory.write
  split_ifs with h
  · exact Memory.insert_wfFrom hm h (Nat.zero_le a)
  · exact hm

/-- Writing a list of bytes keeps the canonical form. -/
theorem Memory.writeList_wf {m : Memory} (hm : m.wf = true) (a : Nat) (vs : List Byte) : (m.writeList a vs).wf = true := by
  induction vs generalizing m a with
  | nil => exact hm
  | cons v vs ih => exact ih (Memory.write_wf hm a v) (a + 1)

theorem Memory.read_insert {m : Memory} {lo a : Nat} {v : Byte} (hm : Memory.wfFrom lo m = true) (b : Nat) :
    Memory.read (Memory.insert m a v) b = if b = a then v else Memory.read m b := by
  induction m generalizing lo with
  | nil =>
    by_cases hv : v = Memory.unlisted a <;> by_cases hb : b = a <;> simp [Memory.insert, Memory.read, hv, hb]
  | cons c m ih =>
    obtain ⟨d, w⟩ := c
    have hc := Memory.wfFrom_cons.mp hm
    rcases Nat.lt_trichotomy a d with h | h | h
    · by_cases hv : v = Memory.unlisted a
      · simp only [Memory.insert, h, hv, if_true]
        by_cases hb : b = a
        · subst hb; simp [Memory.read, h, Nat.ne_of_lt h]
        · simp [hb]
      · simp only [Memory.insert, h, hv, if_true, if_false]
        by_cases hb : b = a
        · simp [Memory.read, hb]
        · by_cases hba : b < a
          · simp [Memory.read, hb, hba, show ¬ b = d by omega, show b < d by omega]
          · simp [Memory.read, hb, hba]
    · subst h
      by_cases hv : v = Memory.unlisted a
      · simp only [Memory.insert, hv, lt_irrefl, if_true, if_false]
        by_cases hb : b = a
        · subst hb; simp [Memory.read_below hc.2.2.2 (Nat.lt_succ_self b)]
        · by_cases hba : b < a
          · simp [Memory.read, hb, hba, Memory.read_below hc.2.2.2 (show b < a + 1 by omega)]
          · simp [Memory.read, hb, hba]
      · by_cases hb : b = a <;> simp [Memory.insert, Memory.read, hv, hb]
    · have hn : Memory.insert ((d, w) :: m) a v = (d, w) :: Memory.insert m a v := by
        simp [Memory.insert, show ¬ a < d by omega, show ¬ a = d by omega]
      rw [hn]
      by_cases hb : b = d
      · simp [Memory.read, hb, show ¬ d = a by omega]
      · by_cases hbd : b < d
        · simp [Memory.read, hb, hbd, show ¬ b = a by omega]
        · simp [Memory.read, hb, hbd, ih hc.2.2.2]

/-- What a byte reads as after a write: the value at the address written, what it was elsewhere. -/
theorem Memory.read_write {m : Memory} (hm : m.wf = true) {a : Nat} (ha : a < 4096) (v : Byte) (b : Nat) :
    (m.write a v).read b = if b = a then v else m.read b := by
  rw [Memory.write, if_pos ha]; exact Memory.read_insert hm b

/-- A write outside the 4096 bytes writes nothing (R62). -/
theorem Memory.write_outside (m : Memory) {a : Nat} (ha : 4096 ≤ a) (v : Byte) : m.write a v = m :=
  if_neg (Nat.not_lt.mpr ha)

/-- What a byte reads as after a list of bytes is written inside memory. -/
theorem Memory.read_writeList {m : Memory} (hm : m.wf = true) {a : Nat} {vs : List Byte} (h : a + vs.length ≤ 4096)
    (b : Nat) : (m.writeList a vs).read b = if a ≤ b ∧ b < a + vs.length then vs.getD (b - a) 0#8 else m.read b := by
  induction vs generalizing m a with
  | nil => simp [Memory.writeList, show ¬ (a ≤ b ∧ b < a) by omega]
  | cons v vs ih =>
    simp only [List.length_cons] at h ⊢
    rw [Memory.writeList, ih (Memory.write_wf hm a v) (by omega), Memory.read_write hm (by omega)]
    rcases Nat.lt_trichotomy b a with hb | hb | hb
    · simp [show ¬ a + 1 ≤ b by omega, show ¬ a ≤ b by omega, show ¬ b = a by omega]
    · subst hb; simp
    · by_cases hlt : b < a + (vs.length + 1)
      · rw [if_pos ⟨by omega, by omega⟩, if_pos ⟨by omega, hlt⟩, show b - a = (b - (a + 1)) + 1 by omega,
          List.getD_cons_succ]
      · rw [if_neg (by omega), if_neg (by omega), if_neg (by omega)]

theorem Memory.readList_length (m : Memory) (a n : Nat) : (m.readList a n).length = n := by
  induction n generalizing a with
  | zero => rfl
  | succ n ih => simp [Memory.readList, ih]

/-- The `k`-th byte of a list read is the byte at the `k`-th address. -/
theorem Memory.readList_getD (m : Memory) {a n k : Nat} (h : k < n) : (m.readList a n).getD k 0#8 = m.read (a + k) := by
  induction n generalizing a k with
  | zero => omega
  | succ n ih =>
    cases k with
    | zero => rfl
    | succ k => rw [Memory.readList, List.getD_cons_succ, ih (by omega)]; congr 1; omega

end Sys2Proof.Machine
end

