-- ==== Sys2Proof/Laws/State.lean ====
section
/-! SUPPORT. One lemma per field per update of State, each true by rfl, so that no proof unfolds a record update. -/

namespace Sys2Proof.Machine

variable (s : State)

@[simp] theorem State.setMem_mem (m : Memory) : (s.setMem m).mem = m := rfl
@[simp] theorem State.setMem_v (m : Memory) : (s.setMem m).v = s.v := rfl
@[simp] theorem State.setMem_i (m : Memory) : (s.setMem m).i = s.i := rfl
@[simp] theorem State.setMem_pc (m : Memory) : (s.setMem m).pc = s.pc := rfl
@[simp] theorem State.setMem_stack (m : Memory) : (s.setMem m).stack = s.stack := rfl
@[simp] theorem State.setMem_disp (m : Memory) : (s.setMem m).disp = s.disp := rfl
@[simp] theorem State.setMem_dt (m : Memory) : (s.setMem m).dt = s.dt := rfl
@[simp] theorem State.setMem_st (m : Memory) : (s.setMem m).st = s.st := rfl
@[simp] theorem State.setMem_keys (m : Memory) : (s.setMem m).keys = s.keys := rfl
@[simp] theorem State.setMem_run (m : Memory) : (s.setMem m).run = s.run := rfl
@[simp] theorem State.setMem_wait (m : Memory) : (s.setMem m).wait = s.wait := rfl
@[simp] theorem State.setMem_params (m : Memory) : (s.setMem m).params = s.params := rfl
@[simp] theorem State.setMem_freeCount (m : Memory) : (s.setMem m).freeCount = s.freeCount := rfl
@[simp] theorem State.setMem_self : s.setMem s.mem = s := rfl

@[simp] theorem State.setV_mem (v : Vector Byte 16) : (s.setV v).mem = s.mem := rfl
@[simp] theorem State.setV_v (v : Vector Byte 16) : (s.setV v).v = v := rfl
@[simp] theorem State.setV_i (v : Vector Byte 16) : (s.setV v).i = s.i := rfl
@[simp] theorem State.setV_pc (v : Vector Byte 16) : (s.setV v).pc = s.pc := rfl
@[simp] theorem State.setV_stack (v : Vector Byte 16) : (s.setV v).stack = s.stack := rfl
@[simp] theorem State.setV_disp (v : Vector Byte 16) : (s.setV v).disp = s.disp := rfl
@[simp] theorem State.setV_dt (v : Vector Byte 16) : (s.setV v).dt = s.dt := rfl
@[simp] theorem State.setV_st (v : Vector Byte 16) : (s.setV v).st = s.st := rfl
@[simp] theorem State.setV_keys (v : Vector Byte 16) : (s.setV v).keys = s.keys := rfl
@[simp] theorem State.setV_run (v : Vector Byte 16) : (s.setV v).run = s.run := rfl
@[simp] theorem State.setV_wait (v : Vector Byte 16) : (s.setV v).wait = s.wait := rfl
@[simp] theorem State.setV_params (v : Vector Byte 16) : (s.setV v).params = s.params := rfl
@[simp] theorem State.setV_freeCount (v : Vector Byte 16) : (s.setV v).freeCount = s.freeCount := rfl
@[simp] theorem State.setV_self : s.setV s.v = s := rfl

@[simp] theorem State.setI_mem (a : Word) : (s.setI a).mem = s.mem := rfl
@[simp] theorem State.setI_v (a : Word) : (s.setI a).v = s.v := rfl
@[simp] theorem State.setI_i (a : Word) : (s.setI a).i = a := rfl
@[simp] theorem State.setI_pc (a : Word) : (s.setI a).pc = s.pc := rfl
@[simp] theorem State.setI_stack (a : Word) : (s.setI a).stack = s.stack := rfl
@[simp] theorem State.setI_disp (a : Word) : (s.setI a).disp = s.disp := rfl
@[simp] theorem State.setI_dt (a : Word) : (s.setI a).dt = s.dt := rfl
@[simp] theorem State.setI_st (a : Word) : (s.setI a).st = s.st := rfl
@[simp] theorem State.setI_keys (a : Word) : (s.setI a).keys = s.keys := rfl
@[simp] theorem State.setI_run (a : Word) : (s.setI a).run = s.run := rfl
@[simp] theorem State.setI_wait (a : Word) : (s.setI a).wait = s.wait := rfl
@[simp] theorem State.setI_params (a : Word) : (s.setI a).params = s.params := rfl
@[simp] theorem State.setI_freeCount (a : Word) : (s.setI a).freeCount = s.freeCount := rfl
@[simp] theorem State.setI_self : s.setI s.i = s := rfl

@[simp] theorem State.setPc_mem (a : Word) : (s.setPc a).mem = s.mem := rfl
@[simp] theorem State.setPc_v (a : Word) : (s.setPc a).v = s.v := rfl
@[simp] theorem State.setPc_i (a : Word) : (s.setPc a).i = s.i := rfl
@[simp] theorem State.setPc_pc (a : Word) : (s.setPc a).pc = a := rfl
@[simp] theorem State.setPc_stack (a : Word) : (s.setPc a).stack = s.stack := rfl
@[simp] theorem State.setPc_disp (a : Word) : (s.setPc a).disp = s.disp := rfl
@[simp] theorem State.setPc_dt (a : Word) : (s.setPc a).dt = s.dt := rfl
@[simp] theorem State.setPc_st (a : Word) : (s.setPc a).st = s.st := rfl
@[simp] theorem State.setPc_keys (a : Word) : (s.setPc a).keys = s.keys := rfl
@[simp] theorem State.setPc_run (a : Word) : (s.setPc a).run = s.run := rfl
@[simp] theorem State.setPc_wait (a : Word) : (s.setPc a).wait = s.wait := rfl
@[simp] theorem State.setPc_params (a : Word) : (s.setPc a).params = s.params := rfl
@[simp] theorem State.setPc_freeCount (a : Word) : (s.setPc a).freeCount = s.freeCount := rfl
@[simp] theorem State.setPc_self : s.setPc s.pc = s := rfl

@[simp] theorem State.setStack_mem (st : List Word) : (s.setStack st).mem = s.mem := rfl
@[simp] theorem State.setStack_v (st : List Word) : (s.setStack st).v = s.v := rfl
@[simp] theorem State.setStack_i (st : List Word) : (s.setStack st).i = s.i := rfl
@[simp] theorem State.setStack_pc (st : List Word) : (s.setStack st).pc = s.pc := rfl
@[simp] theorem State.setStack_stack (st : List Word) : (s.setStack st).stack = st := rfl
@[simp] theorem State.setStack_disp (st : List Word) : (s.setStack st).disp = s.disp := rfl
@[simp] theorem State.setStack_dt (st : List Word) : (s.setStack st).dt = s.dt := rfl
@[simp] theorem State.setStack_st (st : List Word) : (s.setStack st).st = s.st := rfl
@[simp] theorem State.setStack_keys (st : List Word) : (s.setStack st).keys = s.keys := rfl
@[simp] theorem State.setStack_run (st : List Word) : (s.setStack st).run = s.run := rfl
@[simp] theorem State.setStack_wait (st : List Word) : (s.setStack st).wait = s.wait := rfl
@[simp] theorem State.setStack_params (st : List Word) : (s.setStack st).params = s.params := rfl
@[simp] theorem State.setStack_freeCount (st : List Word) : (s.setStack st).freeCount = s.freeCount := rfl
@[simp] theorem State.setStack_self : s.setStack s.stack = s := rfl

@[simp] theorem State.setDisp_mem (d : Display) : (s.setDisp d).mem = s.mem := rfl
@[simp] theorem State.setDisp_v (d : Display) : (s.setDisp d).v = s.v := rfl
@[simp] theorem State.setDisp_i (d : Display) : (s.setDisp d).i = s.i := rfl
@[simp] theorem State.setDisp_pc (d : Display) : (s.setDisp d).pc = s.pc := rfl
@[simp] theorem State.setDisp_stack (d : Display) : (s.setDisp d).stack = s.stack := rfl
@[simp] theorem State.setDisp_disp (d : Display) : (s.setDisp d).disp = d := rfl
@[simp] theorem State.setDisp_dt (d : Display) : (s.setDisp d).dt = s.dt := rfl
@[simp] theorem State.setDisp_st (d : Display) : (s.setDisp d).st = s.st := rfl
@[simp] theorem State.setDisp_keys (d : Display) : (s.setDisp d).keys = s.keys := rfl
@[simp] theorem State.setDisp_run (d : Display) : (s.setDisp d).run = s.run := rfl
@[simp] theorem State.setDisp_wait (d : Display) : (s.setDisp d).wait = s.wait := rfl
@[simp] theorem State.setDisp_params (d : Display) : (s.setDisp d).params = s.params := rfl
@[simp] theorem State.setDisp_freeCount (d : Display) : (s.setDisp d).freeCount = s.freeCount := rfl
@[simp] theorem State.setDisp_self : s.setDisp s.disp = s := rfl

@[simp] theorem State.setDt_mem (b : Byte) : (s.setDt b).mem = s.mem := rfl
@[simp] theorem State.setDt_v (b : Byte) : (s.setDt b).v = s.v := rfl
@[simp] theorem State.setDt_i (b : Byte) : (s.setDt b).i = s.i := rfl
@[simp] theorem State.setDt_pc (b : Byte) : (s.setDt b).pc = s.pc := rfl
@[simp] theorem State.setDt_stack (b : Byte) : (s.setDt b).stack = s.stack := rfl
@[simp] theorem State.setDt_disp (b : Byte) : (s.setDt b).disp = s.disp := rfl
@[simp] theorem State.setDt_dt (b : Byte) : (s.setDt b).dt = b := rfl
@[simp] theorem State.setDt_st (b : Byte) : (s.setDt b).st = s.st := rfl
@[simp] theorem State.setDt_keys (b : Byte) : (s.setDt b).keys = s.keys := rfl
@[simp] theorem State.setDt_run (b : Byte) : (s.setDt b).run = s.run := rfl
@[simp] theorem State.setDt_wait (b : Byte) : (s.setDt b).wait = s.wait := rfl
@[simp] theorem State.setDt_params (b : Byte) : (s.setDt b).params = s.params := rfl
@[simp] theorem State.setDt_freeCount (b : Byte) : (s.setDt b).freeCount = s.freeCount := rfl
@[simp] theorem State.setDt_self : s.setDt s.dt = s := rfl

@[simp] theorem State.setSt_mem (b : Byte) : (s.setSt b).mem = s.mem := rfl
@[simp] theorem State.setSt_v (b : Byte) : (s.setSt b).v = s.v := rfl
@[simp] theorem State.setSt_i (b : Byte) : (s.setSt b).i = s.i := rfl
@[simp] theorem State.setSt_pc (b : Byte) : (s.setSt b).pc = s.pc := rfl
@[simp] theorem State.setSt_stack (b : Byte) : (s.setSt b).stack = s.stack := rfl
@[simp] theorem State.setSt_disp (b : Byte) : (s.setSt b).disp = s.disp := rfl
@[simp] theorem State.setSt_dt (b : Byte) : (s.setSt b).dt = s.dt := rfl
@[simp] theorem State.setSt_st (b : Byte) : (s.setSt b).st = b := rfl
@[simp] theorem State.setSt_keys (b : Byte) : (s.setSt b).keys = s.keys := rfl
@[simp] theorem State.setSt_run (b : Byte) : (s.setSt b).run = s.run := rfl
@[simp] theorem State.setSt_wait (b : Byte) : (s.setSt b).wait = s.wait := rfl
@[simp] theorem State.setSt_params (b : Byte) : (s.setSt b).params = s.params := rfl
@[simp] theorem State.setSt_freeCount (b : Byte) : (s.setSt b).freeCount = s.freeCount := rfl
@[simp] theorem State.setSt_self : s.setSt s.st = s := rfl

@[simp] theorem State.setKeys_mem (k : Vector Bool 16) : (s.setKeys k).mem = s.mem := rfl
@[simp] theorem State.setKeys_v (k : Vector Bool 16) : (s.setKeys k).v = s.v := rfl
@[simp] theorem State.setKeys_i (k : Vector Bool 16) : (s.setKeys k).i = s.i := rfl
@[simp] theorem State.setKeys_pc (k : Vector Bool 16) : (s.setKeys k).pc = s.pc := rfl
@[simp] theorem State.setKeys_stack (k : Vector Bool 16) : (s.setKeys k).stack = s.stack := rfl
@[simp] theorem State.setKeys_disp (k : Vector Bool 16) : (s.setKeys k).disp = s.disp := rfl
@[simp] theorem State.setKeys_dt (k : Vector Bool 16) : (s.setKeys k).dt = s.dt := rfl
@[simp] theorem State.setKeys_st (k : Vector Bool 16) : (s.setKeys k).st = s.st := rfl
@[simp] theorem State.setKeys_keys (k : Vector Bool 16) : (s.setKeys k).keys = k := rfl
@[simp] theorem State.setKeys_run (k : Vector Bool 16) : (s.setKeys k).run = s.run := rfl
@[simp] theorem State.setKeys_wait (k : Vector Bool 16) : (s.setKeys k).wait = s.wait := rfl
@[simp] theorem State.setKeys_params (k : Vector Bool 16) : (s.setKeys k).params = s.params := rfl
@[simp] theorem State.setKeys_freeCount (k : Vector Bool 16) : (s.setKeys k).freeCount = s.freeCount := rfl
@[simp] theorem State.setKeys_self : s.setKeys s.keys = s := rfl

@[simp] theorem State.setRun_mem (r : Run) : (s.setRun r).mem = s.mem := rfl
@[simp] theorem State.setRun_v (r : Run) : (s.setRun r).v = s.v := rfl
@[simp] theorem State.setRun_i (r : Run) : (s.setRun r).i = s.i := rfl
@[simp] theorem State.setRun_pc (r : Run) : (s.setRun r).pc = s.pc := rfl
@[simp] theorem State.setRun_stack (r : Run) : (s.setRun r).stack = s.stack := rfl
@[simp] theorem State.setRun_disp (r : Run) : (s.setRun r).disp = s.disp := rfl
@[simp] theorem State.setRun_dt (r : Run) : (s.setRun r).dt = s.dt := rfl
@[simp] theorem State.setRun_st (r : Run) : (s.setRun r).st = s.st := rfl
@[simp] theorem State.setRun_keys (r : Run) : (s.setRun r).keys = s.keys := rfl
@[simp] theorem State.setRun_run (r : Run) : (s.setRun r).run = r := rfl
@[simp] theorem State.setRun_wait (r : Run) : (s.setRun r).wait = s.wait := rfl
@[simp] theorem State.setRun_params (r : Run) : (s.setRun r).params = s.params := rfl
@[simp] theorem State.setRun_freeCount (r : Run) : (s.setRun r).freeCount = s.freeCount := rfl
@[simp] theorem State.setRun_self : s.setRun s.run = s := rfl

@[simp] theorem State.setWait_mem (w : Option RegIdx) : (s.setWait w).mem = s.mem := rfl
@[simp] theorem State.setWait_v (w : Option RegIdx) : (s.setWait w).v = s.v := rfl
@[simp] theorem State.setWait_i (w : Option RegIdx) : (s.setWait w).i = s.i := rfl
@[simp] theorem State.setWait_pc (w : Option RegIdx) : (s.setWait w).pc = s.pc := rfl
@[simp] theorem State.setWait_stack (w : Option RegIdx) : (s.setWait w).stack = s.stack := rfl
@[simp] theorem State.setWait_disp (w : Option RegIdx) : (s.setWait w).disp = s.disp := rfl
@[simp] theorem State.setWait_dt (w : Option RegIdx) : (s.setWait w).dt = s.dt := rfl
@[simp] theorem State.setWait_st (w : Option RegIdx) : (s.setWait w).st = s.st := rfl
@[simp] theorem State.setWait_keys (w : Option RegIdx) : (s.setWait w).keys = s.keys := rfl
@[simp] theorem State.setWait_run (w : Option RegIdx) : (s.setWait w).run = s.run := rfl
@[simp] theorem State.setWait_wait (w : Option RegIdx) : (s.setWait w).wait = w := rfl
@[simp] theorem State.setWait_params (w : Option RegIdx) : (s.setWait w).params = s.params := rfl
@[simp] theorem State.setWait_freeCount (w : Option RegIdx) : (s.setWait w).freeCount = s.freeCount := rfl
@[simp] theorem State.setWait_self : s.setWait s.wait = s := rfl

@[simp] theorem State.bumpFree_mem : s.bumpFree.mem = s.mem := rfl
@[simp] theorem State.bumpFree_v : s.bumpFree.v = s.v := rfl
@[simp] theorem State.bumpFree_i : s.bumpFree.i = s.i := rfl
@[simp] theorem State.bumpFree_pc : s.bumpFree.pc = s.pc := rfl
@[simp] theorem State.bumpFree_stack : s.bumpFree.stack = s.stack := rfl
@[simp] theorem State.bumpFree_disp : s.bumpFree.disp = s.disp := rfl
@[simp] theorem State.bumpFree_dt : s.bumpFree.dt = s.dt := rfl
@[simp] theorem State.bumpFree_st : s.bumpFree.st = s.st := rfl
@[simp] theorem State.bumpFree_keys : s.bumpFree.keys = s.keys := rfl
@[simp] theorem State.bumpFree_run : s.bumpFree.run = s.run := rfl
@[simp] theorem State.bumpFree_wait : s.bumpFree.wait = s.wait := rfl
@[simp] theorem State.bumpFree_params : s.bumpFree.params = s.params := rfl
@[simp] theorem State.bumpFree_freeCount : s.bumpFree.freeCount = s.freeCount + 1 := rfl

@[simp] theorem State.writeV_mem (x : RegIdx) (b : Byte) : (s.writeV x b).mem = s.mem := rfl
@[simp] theorem State.writeV_v (x : RegIdx) (b : Byte) : (s.writeV x b).v = s.v.set x.toNat b x.isLt := rfl
@[simp] theorem State.writeV_i (x : RegIdx) (b : Byte) : (s.writeV x b).i = s.i := rfl
@[simp] theorem State.writeV_pc (x : RegIdx) (b : Byte) : (s.writeV x b).pc = s.pc := rfl
@[simp] theorem State.writeV_stack (x : RegIdx) (b : Byte) : (s.writeV x b).stack = s.stack := rfl
@[simp] theorem State.writeV_disp (x : RegIdx) (b : Byte) : (s.writeV x b).disp = s.disp := rfl
@[simp] theorem State.writeV_dt (x : RegIdx) (b : Byte) : (s.writeV x b).dt = s.dt := rfl
@[simp] theorem State.writeV_st (x : RegIdx) (b : Byte) : (s.writeV x b).st = s.st := rfl
@[simp] theorem State.writeV_keys (x : RegIdx) (b : Byte) : (s.writeV x b).keys = s.keys := rfl
@[simp] theorem State.writeV_run (x : RegIdx) (b : Byte) : (s.writeV x b).run = s.run := rfl
@[simp] theorem State.writeV_wait (x : RegIdx) (b : Byte) : (s.writeV x b).wait = s.wait := rfl
@[simp] theorem State.writeV_params (x : RegIdx) (b : Byte) : (s.writeV x b).params = s.params := rfl
@[simp] theorem State.writeV_freeCount (x : RegIdx) (b : Byte) : (s.writeV x b).freeCount = s.freeCount := rfl

@[simp] theorem State.advance_mem : s.advance.mem = s.mem := rfl
@[simp] theorem State.advance_v : s.advance.v = s.v := rfl
@[simp] theorem State.advance_i : s.advance.i = s.i := rfl
@[simp] theorem State.advance_pc : s.advance.pc = s.pc + 2#16 := rfl
@[simp] theorem State.advance_stack : s.advance.stack = s.stack := rfl
@[simp] theorem State.advance_disp : s.advance.disp = s.disp := rfl
@[simp] theorem State.advance_dt : s.advance.dt = s.dt := rfl
@[simp] theorem State.advance_st : s.advance.st = s.st := rfl
@[simp] theorem State.advance_keys : s.advance.keys = s.keys := rfl
@[simp] theorem State.advance_run : s.advance.run = s.run := rfl
@[simp] theorem State.advance_wait : s.advance.wait = s.wait := rfl
@[simp] theorem State.advance_params : s.advance.params = s.params := rfl
@[simp] theorem State.advance_freeCount : s.advance.freeCount = s.freeCount := rfl

@[simp] theorem raise_mem (e : CoreError) : (raise e s).mem = s.mem := rfl
@[simp] theorem raise_v (e : CoreError) : (raise e s).v = s.v := rfl
@[simp] theorem raise_i (e : CoreError) : (raise e s).i = s.i := rfl
@[simp] theorem raise_pc (e : CoreError) : (raise e s).pc = s.pc := rfl
@[simp] theorem raise_stack (e : CoreError) : (raise e s).stack = s.stack := rfl
@[simp] theorem raise_disp (e : CoreError) : (raise e s).disp = s.disp := rfl
@[simp] theorem raise_dt (e : CoreError) : (raise e s).dt = s.dt := rfl
@[simp] theorem raise_st (e : CoreError) : (raise e s).st = s.st := rfl
@[simp] theorem raise_keys (e : CoreError) : (raise e s).keys = s.keys := rfl
@[simp] theorem raise_run (e : CoreError) : (raise e s).run = .halted e := rfl
@[simp] theorem raise_wait (e : CoreError) : (raise e s).wait = s.wait := rfl
@[simp] theorem raise_params (e : CoreError) : (raise e s).params = s.params := rfl
@[simp] theorem raise_freeCount (e : CoreError) : (raise e s).freeCount = s.freeCount := rfl

end Sys2Proof.Machine
end

