-- ==== Sys2Proof/Laws/Operands.lean ====
section
/-! SUPPORT. Laws of the register file: read after write, and what the flag-writing operations leave in each register. -/

namespace Sys2Proof.Machine

/-- Zero extension to 16 bits keeps the number (R93). -/
theorem zext16_toNat {n : Nat} (h : n ≤ 16) (a : BitVec n) : (zext16 a).toNat = a.toNat := by
  have : a.toNat < 2 ^ 16 := Nat.lt_of_lt_of_le a.isLt (Nat.pow_le_pow_right (by decide) h)
  simp only [zext16, BitVec.toNat_setWidth, Nat.mod_eq_of_lt this]

@[simp] theorem zext16_addr_toNat (a : Addr12) : (zext16 a).toNat = a.toNat := zext16_toNat (by decide) a

@[simp] theorem zext16_byte_toNat (a : Byte) : (zext16 a).toNat = a.toNat := zext16_toNat (by decide) a

@[simp] theorem zext16_nibble_toNat (a : Nibble) : (zext16 a).toNat = a.toNat := zext16_toNat (by decide) a

theorem RegIdx.toNat_inj {x y : RegIdx} : x.toNat = y.toNat ↔ x = y := ⟨BitVec.eq_of_toNat_eq, fun h => by rw [h]⟩

/-- What a register reads as after a write. -/
theorem State.readV_writeV (s : State) (x y : RegIdx) (b : Byte) :
    (s.writeV x b).readV y = if x = y then b else s.readV y := by
  simp only [State.readV, State.writeV, State.setV, Vector.getElem_set, RegIdx.toNat_inj]

@[simp] theorem State.readV_writeV_self (s : State) (x : RegIdx) (b : Byte) : (s.writeV x b).readV x = b := by
  simp [State.readV_writeV]

theorem State.readV_writeV_ne (s : State) {x y : RegIdx} (b : Byte) (h : x ≠ y) :
    (s.writeV x b).readV y = s.readV y := by
  simp [State.readV_writeV, h]

/-- A register reads from the register file alone. -/
theorem State.readV_congr {s t : State} (h : t.v = s.v) (x : RegIdx) : t.readV x = s.readV x := by
  simp only [State.readV, h]

/-- The register file is what its registers read as. -/
theorem State.v_ext {s t : State} (h : ∀ x, t.readV x = s.readV x) : t.v = s.v := by
  apply Vector.ext
  intro k hk
  simpa [State.readV, Nat.mod_eq_of_lt hk] using h (BitVec.ofNat 4 k)

/-- The flag operation leaves the flag in VF, the result in Vx unless x = F, and every other register alone (R200). -/
theorem State.readV_writeResult (s : State) (x y : RegIdx) (r : Byte × Bool) :
    (s.writeResult x r).readV y = if y = vf then flagByte r.2 else if x = y then r.1 else s.readV y := by
  simp only [State.writeResult, State.writeFlag, State.readV_writeV, eq_comm (a := y)]

/-- The logic operation leaves its result in Vx, and 0 in VF only under `LOGIC_VF = Zero` (R208-R210). -/
theorem State.readV_writeLogic (s : State) (x y : RegIdx) (r : Byte) :
    (s.writeLogic x r).readV y =
      if s.params.logicVf = .zero ∧ y = vf then 0#8 else if x = y then r else s.readV y := by
  unfold State.writeLogic
  cases s.params.logicVf <;> simp [State.writeFlag, State.readV_writeV, flagByte, eq_comm (a := y)]

/-- The decimal digits of a byte, as numbers (R254). -/
theorem decimalDigits_toNat (v : Byte) :
    (decimalDigits v).map BitVec.toNat = [v.toNat / 100, v.toNat / 10 % 10, v.toNat % 10] := by
  simp [decimalDigits]

/-- The registers stored by LD [I],Vx, in order (R255). -/
theorem State.regsThrough_length (s : State) (x : RegIdx) : (s.regsThrough x).length = x.toNat + 1 := by
  have := x.isLt
  simp [State.regsThrough]; omega

theorem State.regsThrough_getD (s : State) {x r : RegIdx} (h : r.toNat ≤ x.toNat) :
    (s.regsThrough x).getD r.toNat 0#8 = s.readV r := by
  have hr := r.isLt
  have hv : s.v[r.toNat]? = some (s.v[r.toNat]'(r.isLt)) := Vector.getElem?_eq_getElem r.isLt
  simp [State.regsThrough, State.readV, List.getD_eq_getElem?_getD, Nat.lt_succ_of_le h, hv]

/-- What loading `n` registers leaves at register `k`: the byte at `base + k` for the loaded ones (R256). -/
theorem loadRegs_getElem (m : Memory) (base : Nat) (v : Vector Byte 16) (n : Nat) {k : Nat} (hk : k < 16) :
    (loadRegs m base n v)[k] = if k < n then m.read (base + k) else v[k] := by
  induction n with
  | zero => simp [loadRegs]
  | succ n ih =>
    simp only [loadRegs, Vector.getElem_setIfInBounds, ih]
    by_cases h : n = k
    · subst h; simp
    · simp only [h, if_false]; congr 1; simp; omega

end Sys2Proof.Machine
end

