-- ==== Sys2Proof/Laws/Ops.lean ====
section
/-! SUPPORT. What each shared operation can do, said once: the end of an execute rule, the checked accesses, the range check,
the fetch and the call stack. -/

namespace Sys2Proof.Machine

@[simp] theorem complete_ok (s t : State) : complete s (.ok t) = .next t := rfl
@[simp] theorem complete_error (s : State) (e : CoreError) : complete s (.error e) = .next (raise e s) := rfl

/-- An execute rule ends in its next state, or in the state it began with, Halted (R137). -/
theorem complete_next {s t : State} {r : Except CoreError State} (h : complete s r = .next t) :
    r = .ok t ∨ ∃ e, r = .error e ∧ t = raise e s := by
  cases r with
  | ok u => left; simpa [complete] using h
  | error e => right; exact ⟨e, rfl, by simpa [complete] using h.symm⟩

theorem memRead_ok {s : State} {a : Word} (h : a.toNat < 4096) : memRead s a = .ok (s.mem.read a.toNat) := if_pos h

theorem memRead_error {s : State} {a : Word} (h : 4096 ≤ a.toNat) : memRead s a = .error (.outOfBounds a) :=
  if_neg (Nat.not_lt.mpr h)

/-- The range check passes when the last byte is in bounds (R250). -/
theorem checkRange_ok {base count : Nat} (h : base + count ≤ 4096) : checkRange base count = .ok () :=
  if_neg (show ¬ 4096 ≤ base + count - 1 by omega)

/-- The range check of a range that starts in bounds and runs off the top reports 0x1000 (R250). -/
theorem checkRange_error {base count : Nat} (hb : base ≤ 4096) (h : 4096 < base + count) :
    checkRange base count = .error (.outOfBounds 0x1000#16) := by
  rw [checkRange, if_pos (show 4096 ≤ base + count - 1 by omega), Nat.max_eq_right hb]

/-- The fetch succeeds below 0xFFF: the two bytes, high byte first (R65, R66). -/
theorem fetch_ok {s : State} (h : s.pc.toNat < 0xFFF) :
    fetch s = .ok (wordOfBytes (s.mem.read s.pc.toNat) (s.mem.read (s.pc.toNat + 1))) := by
  have h1 : (s.pc + 1#16).toNat = s.pc.toNat + 1 := by simp; omega
  rw [fetch, memRead_ok (by omega), memRead_ok (by omega), h1]

/-- The fetch fails at 0xFFF and above with the first invalid address (R66). -/
theorem fetch_error {s : State} (h : 0xFFF ≤ s.pc.toNat) :
    fetch s = .error (.outOfBounds (if 0x1000 ≤ s.pc.toNat then s.pc else 0x1000#16)) := by
  unfold fetch
  split_ifs with h2
  · rw [memRead_error h2]
  · have hp : s.pc = 0xFFF#16 := BitVec.eq_of_toNat_eq (by simp; omega)
    rw [memRead_ok (by omega), hp, memRead_error (by decide)]; rfl

/-- A fetch that succeeds was made below 0xFFF. -/
theorem fetch_ok_lt {s : State} {w : Word} (h : fetch s = .ok w) : s.pc.toNat < 0xFFF := by
  by_contra hc
  rw [fetch_error (by omega)] at h; cases h

/-- Everything a push can do (R161). -/
theorem push_cases (a : Word) (s : State) :
    (16 ≤ s.stack.length ∧ push a s = .error (.stackOverflow s.fetchAddr)) ∨
      (s.stack.length < 16 ∧ push a s = .ok (s.setStack (a :: s.stack))) := by
  unfold push
  split_ifs with h
  · exact .inl ⟨h, rfl⟩
  · exact .inr ⟨Nat.lt_of_not_le h, rfl⟩

/-- Everything a pop can do (R162). -/
theorem pop_cases (s : State) :
    (s.stack = [] ∧ pop s = .error (.stackUnderflow s.fetchAddr)) ∨
      ∃ a rest, s.stack = a :: rest ∧ pop s = .ok (a, s.setStack rest) := by
  unfold pop
  cases h : s.stack with
  | nil => exact .inl ⟨rfl, rfl⟩
  | cons a rest => exact .inr ⟨a, rest, rfl, rfl⟩

/-- Everything reading a key can do (R286). -/
theorem readKey_cases (k : Byte) (s : State) :
    (∃ b, readKey k s = .ok (b, s)) ∨ (∃ b, readKey k s = .ok (b, s.bumpFree)) ∨
      (s.params.keyIndexOor = .refuse ∧ readKey k s = .error (.keyIndexOutOfRange k)) := by
  unfold readKey
  split_ifs
  · exact .inl ⟨_, rfl⟩
  · cases h : s.params.keyIndexOor
    · exact .inl ⟨_, rfl⟩
    · exact .inl ⟨_, rfl⟩
    · exact .inr (.inr ⟨rfl, rfl⟩)
    · exact .inr (.inl ⟨_, rfl⟩)

end Sys2Proof.Machine
end

