-- ==== Sys2Proof/Laws/PerInstr.lean ====
section
/-! SUPPORT. Statements for all instructions, one lemma per constructor. Family `EncodeHitsRow`: the encoder's word has the fixed
bits that spec/opcode_table.json gives the instruction's row, and is none of the words the row excludes. -/

namespace Sys2Proof

theorem getLsbD_wordXYN (op x y n : Nibble) (k : Nat) :
    (wordXYN op x y n).getLsbD k =
      if k < 4 then n.getLsbD k else if k < 8 then y.getLsbD (k - 4) else if k < 12 then x.getLsbD (k - 8)
      else op.getLsbD (k - 12) := by
  have h1 : (wordXYN op x y n).getLsbD k = _ := BitVec.getLsbD_append (x := op ++ x ++ y) (y := n) (i := k)
  have h2 : (op ++ x ++ y).getLsbD (k - 4) = _ := BitVec.getLsbD_append (x := op ++ x) (y := y) (i := k - 4)
  have h3 : (op ++ x).getLsbD (k - 4 - 4) = _ := BitVec.getLsbD_append (x := op) (y := x) (i := k - 4 - 4)
  rw [h1, h2, h3, Nat.sub_sub, Nat.sub_sub]
  split_ifs <;> first | rfl | omega

/-- A mask made of four nibbles acts nibble by nibble. -/
theorem wordXYN_and (a b c d e f g h : Nibble) :
    wordXYN a b c d &&& wordXYN e f g h = wordXYN (a &&& e) (b &&& f) (c &&& g) (d &&& h) := by
  apply BitVec.eq_of_getLsbD_eq
  intro k _
  simp only [BitVec.getLsbD_and, getLsbD_wordXYN]
  split_ifs <;> rfl

/-- The formats with a byte or an address, as four nibbles. -/
theorem wordXB_eq (op x : Nibble) (nn : Byte) :
    wordXB op x nn = wordXYN op x (nn.extractLsb' 4 4) (nn.extractLsb' 0 4) := by
  apply BitVec.eq_of_toNat_eq
  rw [wordXB_toNat, wordXYN_toNat]; simp [Nat.shiftRight_eq_div_pow]; omega

theorem wordA_eq (op : Nibble) (nnn : Addr12) :
    wordA op nnn = wordXYN op (nnn.extractLsb' 8 4) (nnn.extractLsb' 4 4) (nnn.extractLsb' 0 4) := by
  apply BitVec.eq_of_toNat_eq
  rw [wordA_toNat, wordXYN_toNat]; simp [Nat.shiftRight_eq_div_pow]; omega

theorem nibble_and_ones (a : Nibble) : a &&& 15#4 = a := BitVec.and_allOnes (x := a)

theorem and_maskOp (op x y n : Nibble) : wordXYN op x y n &&& 0xF000#16 = wordXYN op 0 0 0 := by
  rw [show 0xF000#16 = wordXYN 0xF 0x0 0x0 0x0 from by decide, wordXYN_and]
  simp [nibble_and_ones]

theorem and_maskOpN (op x y n : Nibble) : wordXYN op x y n &&& 0xF00F#16 = wordXYN op 0 0 n := by
  rw [show 0xF00F#16 = wordXYN 0xF 0x0 0x0 0xF from by decide, wordXYN_and]
  simp [nibble_and_ones]

theorem and_maskOpNn (op x y n : Nibble) : wordXYN op x y n &&& 0xF0FF#16 = wordXYN op 0 y n := by
  rw [show 0xF0FF#16 = wordXYN 0xF 0x0 0xF 0xF from by decide, wordXYN_and]
  simp [nibble_and_ones]

/-- A row without exclusions is hit by the words with its fixed bits. -/
theorem hits_of_and {m : String} {p k w : Word} (h : w &&& k = p) : OpRow.hits ⟨m, p, k, []⟩ w = true := by
  simp [OpRow.hits, h]

end Sys2Proof

namespace Sys2Proof.Laws.EncodeHitsRow

/-- The word the encoder gives a well-formed instruction hits the row of its mnemonic. -/
def Statement (i : Instr) : Prop :=
  i.wellFormed = true → ∃ r ∈ opcodeRows, r.mnemonic = i.mnemonic ∧ r.hits (encode i) = true

theorem sys (nnn : Addr12) : Statement (.sys nnn) := fun h => by
  have hw : nnn ≠ 0x0E0#12 ∧ nnn ≠ 0x0EE#12 := by simpa [Instr.wellFormed] using h
  have hE0 : wordA 0x0#4 nnn ≠ 0x00E0#16 := fun he =>
    hw.1 ((nnnField_wordA 0x0#4 nnn).symm.trans ((congrArg nnnField he).trans (by decide)))
  have hEE : wordA 0x0#4 nnn ≠ 0x00EE#16 := fun he =>
    hw.2 ((nnnField_wordA 0x0#4 nnn).symm.trans ((congrArg nnnField he).trans (by decide)))
  have hm : wordA 0x0#4 nnn &&& 0xF000#16 = 0x0000#16 := by rw [wordA_eq]; exact (and_maskOp ..).trans (by decide)
  exact ⟨⟨"SYS", 0x0000, 0xF000, [0x00E0, 0x00EE]⟩, List.mem_append_left _ (List.mem_append_left _ (by decide)), rfl, by
    simp [OpRow.hits, encode, hm, hE0, hEE]⟩

theorem cls : Statement .cls := fun _ =>
  ⟨⟨"CLS", 0x00E0, 0xFFFF, []⟩, List.mem_append_left _ (List.mem_append_left _ (by decide)), rfl, by decide⟩

theorem ret : Statement .ret := fun _ =>
  ⟨⟨"RET", 0x00EE, 0xFFFF, []⟩, List.mem_append_left _ (List.mem_append_left _ (by decide)), rfl, by decide⟩

theorem jp (nnn : Addr12) : Statement (.jp nnn) := fun _ =>
  ⟨⟨"JP", 0x1000, 0xF000, []⟩, List.mem_append_left _ (List.mem_append_left _ (by decide)), rfl, hits_of_and (by
    rw [encode, wordA_eq]; exact (and_maskOp ..).trans (by decide))⟩

theorem call (nnn : Addr12) : Statement (.call nnn) := fun _ =>
  ⟨⟨"CALL", 0x2000, 0xF000, []⟩, List.mem_append_left _ (List.mem_append_left _ (by decide)), rfl, hits_of_and (by
    rw [encode, wordA_eq]; exact (and_maskOp ..).trans (by decide))⟩

theorem seImm (x : RegIdx) (nn : Byte) : Statement (.seImm x nn) := fun _ =>
  ⟨⟨"SE_Vx__nn", 0x3000, 0xF000, []⟩, List.mem_append_left _ (List.mem_append_left _ (by decide)), rfl, hits_of_and (by
    rw [encode, wordXB_eq]; exact (and_maskOp ..).trans (by decide))⟩

theorem sneImm (x : RegIdx) (nn : Byte) : Statement (.sneImm x nn) := fun _ =>
  ⟨⟨"SNE_Vx__nn", 0x4000, 0xF000, []⟩, List.mem_append_left _ (List.mem_append_left _ (by decide)), rfl, hits_of_and (by
    rw [encode, wordXB_eq]; exact (and_maskOp ..).trans (by decide))⟩

theorem seReg (x y : RegIdx) : Statement (.seReg x y) := fun _ =>
  ⟨⟨"SE_Vx__Vy", 0x5000, 0xF00F, []⟩, List.mem_append_left _ (List.mem_append_left _ (by decide)), rfl, hits_of_and (by
    rw [encode]; exact (and_maskOpN ..).trans (by decide))⟩

theorem ldImm (x : RegIdx) (nn : Byte) : Statement (.ldImm x nn) := fun _ =>
  ⟨⟨"LD_Vx__nn", 0x6000, 0xF000, []⟩, List.mem_append_left _ (List.mem_append_left _ (by decide)), rfl, hits_of_and (by
    rw [encode, wordXB_eq]; exact (and_maskOp ..).trans (by decide))⟩

theorem addImm (x : RegIdx) (nn : Byte) : Statement (.addImm x nn) := fun _ =>
  ⟨⟨"ADD_Vx__nn", 0x7000, 0xF000, []⟩, List.mem_append_left _ (List.mem_append_left _ (by decide)), rfl, hits_of_and (by
    rw [encode, wordXB_eq]; exact (and_maskOp ..).trans (by decide))⟩

theorem ldReg (x y : RegIdx) : Statement (.ldReg x y) := fun _ =>
  ⟨⟨"LD_Vx__Vy", 0x8000, 0xF00F, []⟩, List.mem_append_left _ (List.mem_append_right _ (by decide)), rfl, hits_of_and (by
    rw [encode]; exact (and_maskOpN ..).trans (by decide))⟩

theorem orReg (x y : RegIdx) : Statement (.orReg x y) := fun _ =>
  ⟨⟨"OR_Vx__Vy", 0x8001, 0xF00F, []⟩, List.mem_append_left _ (List.mem_append_right _ (by decide)), rfl, hits_of_and (by
    rw [encode]; exact (and_maskOpN ..).trans (by decide))⟩

theorem andReg (x y : RegIdx) : Statement (.andReg x y) := fun _ =>
  ⟨⟨"AND_Vx__Vy", 0x8002, 0xF00F, []⟩, List.mem_append_left _ (List.mem_append_right _ (by decide)), rfl, hits_of_and (by
    rw [encode]; exact (and_maskOpN ..).trans (by decide))⟩

theorem xorReg (x y : RegIdx) : Statement (.xorReg x y) := fun _ =>
  ⟨⟨"XOR_Vx__Vy", 0x8003, 0xF00F, []⟩, List.mem_append_left _ (List.mem_append_right _ (by decide)), rfl, hits_of_and (by
    rw [encode]; exact (and_maskOpN ..).trans (by decide))⟩

theorem addReg (x y : RegIdx) : Statement (.addReg x y) := fun _ =>
  ⟨⟨"ADD_Vx__Vy", 0x8004, 0xF00F, []⟩, List.mem_append_left _ (List.mem_append_right _ (by decide)), rfl, hits_of_and (by
    rw [encode]; exact (and_maskOpN ..).trans (by decide))⟩

theorem sub (x y : RegIdx) : Statement (.sub x y) := fun _ =>
  ⟨⟨"SUB_Vx__Vy", 0x8005, 0xF00F, []⟩, List.mem_append_left _ (List.mem_append_right _ (by decide)), rfl, hits_of_and (by
    rw [encode]; exact (and_maskOpN ..).trans (by decide))⟩

theorem shr (x y : RegIdx) : Statement (.shr x y) := fun _ =>
  ⟨⟨"SHR_Vx", 0x8006, 0xF00F, []⟩, List.mem_append_left _ (List.mem_append_right _ (by decide)), rfl, hits_of_and (by
    rw [encode]; exact (and_maskOpN ..).trans (by decide))⟩

theorem subn (x y : RegIdx) : Statement (.subn x y) := fun _ =>
  ⟨⟨"SUBN_Vx__Vy", 0x8007, 0xF00F, []⟩, List.mem_append_left _ (List.mem_append_right _ (by decide)), rfl, hits_of_and (by
    rw [encode]; exact (and_maskOpN ..).trans (by decide))⟩

theorem shl (x y : RegIdx) : Statement (.shl x y) := fun _ =>
  ⟨⟨"SHL_Vx", 0x800E, 0xF00F, []⟩, List.mem_append_left _ (List.mem_append_right _ (by decide)), rfl, hits_of_and (by
    rw [encode]; exact (and_maskOpN ..).trans (by decide))⟩

theorem sneReg (x y : RegIdx) : Statement (.sneReg x y) := fun _ =>
  ⟨⟨"SNE_Vx__Vy", 0x9000, 0xF00F, []⟩, List.mem_append_left _ (List.mem_append_right _ (by decide)), rfl, hits_of_and (by
    rw [encode]; exact (and_maskOpN ..).trans (by decide))⟩

theorem ldI (nnn : Addr12) : Statement (.ldI nnn) := fun _ =>
  ⟨⟨"LD_I__nnn", 0xA000, 0xF000, []⟩, List.mem_append_left _ (List.mem_append_right _ (by decide)), rfl, hits_of_and (by
    rw [encode, wordA_eq]; exact (and_maskOp ..).trans (by decide))⟩

theorem jpV0 (nnn : Addr12) : Statement (.jpV0 nnn) := fun _ =>
  ⟨⟨"JP_V0__nnn", 0xB000, 0xF000, []⟩, List.mem_append_left _ (List.mem_append_right _ (by decide)), rfl, hits_of_and (by
    rw [encode, wordA_eq]; exact (and_maskOp ..).trans (by decide))⟩

theorem rnd (x : RegIdx) (nn : Byte) : Statement (.rnd x nn) := fun _ =>
  ⟨⟨"RND_Vx__nn", 0xC000, 0xF000, []⟩, List.mem_append_left _ (List.mem_append_right _ (by decide)), rfl, hits_of_and (by
    rw [encode, wordXB_eq]; exact (and_maskOp ..).trans (by decide))⟩

theorem drw (x y : RegIdx) (n : Nibble) : Statement (.drw x y n) := fun _ =>
  ⟨⟨"DRW_Vx__Vy__n", 0xD000, 0xF000, []⟩, List.mem_append_left _ (List.mem_append_right _ (by decide)), rfl, hits_of_and (by
    rw [encode]; exact (and_maskOp ..).trans (by decide))⟩

theorem skp (x : RegIdx) : Statement (.skp x) := fun _ =>
  ⟨⟨"SKP_Vx", 0xE09E, 0xF0FF, []⟩, List.mem_append_right _ (by decide), rfl, hits_of_and (by
    rw [encode, wordXB_eq]; exact (and_maskOpNn ..).trans (by decide))⟩

theorem sknp (x : RegIdx) : Statement (.sknp x) := fun _ =>
  ⟨⟨"SKNP_Vx", 0xE0A1, 0xF0FF, []⟩, List.mem_append_right _ (by decide), rfl, hits_of_and (by
    rw [encode, wordXB_eq]; exact (and_maskOpNn ..).trans (by decide))⟩

theorem ldVxDt (x : RegIdx) : Statement (.ldVxDt x) := fun _ =>
  ⟨⟨"LD_Vx__DT", 0xF007, 0xF0FF, []⟩, List.mem_append_right _ (by decide), rfl, hits_of_and (by
    rw [encode, wordXB_eq]; exact (and_maskOpNn ..).trans (by decide))⟩

theorem ldVxK (x : RegIdx) : Statement (.ldVxK x) := fun _ =>
  ⟨⟨"LD_Vx__K", 0xF00A, 0xF0FF, []⟩, List.mem_append_right _ (by decide), rfl, hits_of_and (by
    rw [encode, wordXB_eq]; exact (and_maskOpNn ..).trans (by decide))⟩

theorem ldDtVx (x : RegIdx) : Statement (.ldDtVx x) := fun _ =>
  ⟨⟨"LD_DT__Vx", 0xF015, 0xF0FF, []⟩, List.mem_append_right _ (by decide), rfl, hits_of_and (by
    rw [encode, wordXB_eq]; exact (and_maskOpNn ..).trans (by decide))⟩

theorem ldStVx (x : RegIdx) : Statement (.ldStVx x) := fun _ =>
  ⟨⟨"LD_ST__Vx", 0xF018, 0xF0FF, []⟩, List.mem_append_right _ (by decide), rfl, hits_of_and (by
    rw [encode, wordXB_eq]; exact (and_maskOpNn ..).trans (by decide))⟩

theorem addI (x : RegIdx) : Statement (.addI x) := fun _ =>
  ⟨⟨"ADD_I__Vx", 0xF01E, 0xF0FF, []⟩, List.mem_append_right _ (by decide), rfl, hits_of_and (by
    rw [encode, wordXB_eq]; exact (and_maskOpNn ..).trans (by decide))⟩

theorem ldF (x : RegIdx) : Statement (.ldF x) := fun _ =>
  ⟨⟨"LD_F__Vx", 0xF029, 0xF0FF, []⟩, List.mem_append_right _ (by decide), rfl, hits_of_and (by
    rw [encode, wordXB_eq]; exact (and_maskOpNn ..).trans (by decide))⟩

theorem ldB (x : RegIdx) : Statement (.ldB x) := fun _ =>
  ⟨⟨"LD_B__Vx", 0xF033, 0xF0FF, []⟩, List.mem_append_right _ (by decide), rfl, hits_of_and (by
    rw [encode, wordXB_eq]; exact (and_maskOpNn ..).trans (by decide))⟩

theorem ldMemVx (x : RegIdx) : Statement (.ldMemVx x) := fun _ =>
  ⟨⟨"LD__I___Vx", 0xF055, 0xF0FF, []⟩, List.mem_append_right _ (by decide), rfl, hits_of_and (by
    rw [encode, wordXB_eq]; exact (and_maskOpNn ..).trans (by decide))⟩

theorem ldVxMem (x : RegIdx) : Statement (.ldVxMem x) := fun _ =>
  ⟨⟨"LD_Vx___I", 0xF065, 0xF0FF, []⟩, List.mem_append_right _ (by decide), rfl, hits_of_and (by
    rw [encode, wordXB_eq]; exact (and_maskOpNn ..).trans (by decide))⟩

end Sys2Proof.Laws.EncodeHitsRow
end

