-- ==== Sys2Proof/Laws/Step.lean ====
section
/-! SUPPORT. Everything one step can do, said once, and what an execute phase can do to `run`. -/

namespace Sys2Proof.Machine

/-- Everything a step that answers a next state can have done (R139). -/
theorem step_cases {s t : State} (h : step s = .next t) :
    (∃ e, s.run = .halted e ∧ t = s) ∨ (∃ x, s.run = .running ∧ s.wait = some x ∧ t = s) ∨
      (s.Ready ∧ ∃ e, fetch s = .error e ∧ t = raise e s) ∨
      (s.Ready ∧ ∃ w r, fetch s = .ok w ∧ decode w = .error r ∧ t = raise (.unknownOpcode w s.pc) s.advance) ∨
      (s.Ready ∧ ∃ w i, fetch s = .ok w ∧ decode w = .ok i ∧ exec i s.advance = .next t) := by
  unfold step stepOnce at h
  cases hr : s.run with
  | halted e => rw [hr] at h; cases h; exact .inl ⟨e, rfl, rfl⟩
  | running =>
    rw [hr] at h
    cases hw : s.wait with
    | some x => rw [hw] at h; cases h; exact .inr (.inl ⟨x, rfl, rfl, rfl⟩)
    | none =>
      simp only [hw, runCycle] at h
      cases hf : fetch s with
      | error e => rw [hf] at h; cases h; exact .inr (.inr (.inl ⟨⟨hr, hw⟩, e, rfl, rfl⟩))
      | ok w =>
        simp only [hf, dispatchWord] at h
        cases hd : decode w with
        | error r => rw [hd] at h; cases h; exact .inr (.inr (.inr (.inl ⟨⟨hr, hw⟩, w, r, rfl, hd, rfl⟩)))
        | ok i => rw [hd] at h; exact .inr (.inr (.inr (.inr ⟨⟨hr, hw⟩, w, i, rfl, hd, h⟩)))

/-- A ready core that fetches a word that decodes executes the instruction on the advanced state (R135, R137). -/
theorem step_of_decode {s : State} {w : Word} {i : Instr} (hs : s.Ready) (hf : fetch s = .ok w) (hd : decode w = .ok i) :
    step s = exec i s.advance := by
  simp [step, stepOnce, hs.1, hs.2, runCycle, hf, dispatchWord, hd]

/-- A ready core whose fetch fails halts with nothing advanced (R134). -/
theorem step_of_fetch_error {s : State} {e : CoreError} (hs : s.Ready) (hf : fetch s = .error e) :
    step s = .next (raise e s) := by
  simp [step, stepOnce, hs.1, hs.2, runCycle, hf]

/-- A ready core that fetches an unknown word halts with the advance made (R136). -/
theorem step_of_unknown {s : State} {w : Word} {r : Reject} (hs : s.Ready) (hf : fetch s = .ok w)
    (hd : decode w = .error r) : step s = .next (raise (.unknownOpcode w s.pc) s.advance) := by
  simp [step, stepOnce, hs.1, hs.2, runCycle, hf, dispatchWord, hd]

/-- The range check can only report a fetch-style error, never a failed host load. -/
theorem checkRange_cases (base count : Nat) :
    checkRange base count = .ok () ∨ ∃ a, checkRange base count = .error (.outOfBounds a) := by
  unfold checkRange; split_ifs
  · exact .inr ⟨_, rfl⟩
  · exact .inl rfl

theorem checkSprite_cases (base n : Nat) :
    checkSprite base n = .ok () ∨ ∃ a, checkSprite base n = .error (.outOfBounds a) := by
  unfold checkSprite; split_ifs
  · exact .inl rfl
  · exact checkRange_cases base n

@[simp] theorem State.incrementI_run (s : State) (x : RegIdx) : (s.incrementI x).run = s.run := by
  unfold State.incrementI; cases s.params.memIIncrement <;> rfl

@[simp] theorem State.waitPc_run (s : State) : s.waitPc.run = s.run := by
  unfold State.waitPc; cases s.params.keywaitPc <;> rfl

@[simp] theorem State.writeLogic_run (s : State) (x : RegIdx) (r : Byte) : (s.writeLogic x r).run = s.run := by
  unfold State.writeLogic; cases s.params.logicVf <;> rfl

@[simp] theorem skipIf_run (c : Bool) (s : State) : (skipIf c s).run = s.run := by
  unfold skipIf; split_ifs <;> rfl

/-- An execute phase leaves `run` alone, or halts the state it began with, in all else unchanged, with an error that is not a
failed host load (R137, R342). -/
theorem exec_run {i : Instr} {s t : State} (h : exec i s = .next t) :
    t.run = s.run ∨ ∃ e, t = raise e s ∧ ∀ offset len, e ≠ .memoryOverflow offset len := by
  cases i
  case sys nnn =>
    simp only [exec, execSys] at h
    split at h
    · cases h; exact .inl rfl
    · cases h; exact .inr ⟨_, rfl, by simp⟩
  case ret =>
    simp only [exec, execRet] at h
    rcases pop_cases s with ⟨-, hp⟩ | ⟨a, rest, -, hp⟩ <;> (rw [hp] at h; cases h)
    · exact .inr ⟨_, rfl, by simp⟩
    · exact .inl rfl
  case call nnn =>
    simp only [exec, execCall] at h
    rcases push_cases s.pc s with ⟨-, hp⟩ | ⟨-, hp⟩ <;> (rw [hp] at h; cases h)
    · exact .inr ⟨_, rfl, by simp⟩
    · exact .inl rfl
  case drw x y n =>
    simp only [exec, execDrw] at h
    rcases checkSprite_cases s.base n.toNat with hp | ⟨a, hp⟩ <;> (rw [hp] at h; cases h)
    · exact .inl rfl
    · exact .inr ⟨_, rfl, by simp⟩
  case ldB x =>
    simp only [exec, execLdB] at h
    rcases checkRange_cases s.base 3 with hp | ⟨a, hp⟩ <;> (rw [hp] at h; cases h)
    · exact .inl rfl
    · exact .inr ⟨_, rfl, by simp⟩
  case ldMemVx x =>
    simp only [exec, execLdMemVx] at h
    rcases checkRange_cases s.base (x.toNat + 1) with hp | ⟨a, hp⟩ <;> (rw [hp] at h; cases h)
    · exact .inl (State.incrementI_run ..)
    · exact .inr ⟨_, rfl, by simp⟩
  case ldVxMem x =>
    simp only [exec, execLdVxMem] at h
    rcases checkRange_cases s.base (x.toNat + 1) with hp | ⟨a, hp⟩ <;> (rw [hp] at h; cases h)
    · exact .inl (State.incrementI_run ..)
    · exact .inr ⟨_, rfl, by simp⟩
  case skp x =>
    simp only [exec, execSkp, skipIfKey] at h
    rcases readKey_cases (s.readV x) s with ⟨b, hk⟩ | ⟨b, hk⟩ | ⟨-, hk⟩ <;> (rw [hk] at h; cases h)
    · exact .inl (skipIf_run ..)
    · exact .inl (skipIf_run ..)
  case sknp x =>
    simp only [exec, execSknp, skipIfKey] at h
    rcases readKey_cases (s.readV x) s with ⟨b, hk⟩ | ⟨b, hk⟩ | ⟨-, hk⟩ <;> (rw [hk] at h; cases h)
    · exact .inl (skipIf_run ..)
    · exact .inl (skipIf_run ..)
  case orReg x y => cases h; exact .inl (State.writeLogic_run ..)
  case andReg x y => cases h; exact .inl (State.writeLogic_run ..)
  case xorReg x y => cases h; exact .inl (State.writeLogic_run ..)
  case seImm x nn => cases h; exact .inl (skipIf_run ..)
  case sneImm x nn => cases h; exact .inl (skipIf_run ..)
  case seReg x y => cases h; exact .inl (skipIf_run ..)
  case sneReg x y => cases h; exact .inl (skipIf_run ..)
  case ldVxK x => cases h; exact .inl (State.waitPc_run _)
  all_goals (cases h; exact .inl rfl)

end Sys2Proof.Machine
end

