-- ==== Sys2Proof/Tests/Slice0.lean ====
section
/-! SUPPORT. The model's own tests: expected values are taken from 95_test_vectors.md and from the encodings of 30_encoding.md
R96, never from the model. Then, for every obligation with hypotheses, a concrete state and operands that meet them. -/

namespace Sys2Proof.Tests

open Sys2Proof Sys2Proof.Machine

/-! ## Decoding: one word per constructor, written out from R96 -/

theorem test_decode_system : decode 0x0123#16 = .ok (.sys 0x123#12) ∧ decode 0x00E0#16 = .ok .cls ∧
    decode 0x00EE#16 = .ok .ret := by decide

theorem test_decode_jumps : decode 0x1ABC#16 = .ok (.jp 0xABC#12) ∧ decode 0x2300#16 = .ok (.call 0x300#12) ∧
    decode 0xB301#16 = .ok (.jpV0 0x301#12) := by decide

theorem test_decode_skips : decode 0x3342#16 = .ok (.seImm 0x3#4 0x42#8) ∧ decode 0x4342#16 = .ok (.sneImm 0x3#4 0x42#8) ∧
    decode 0x5120#16 = .ok (.seReg 0x1#4 0x2#4) ∧ decode 0x9120#16 = .ok (.sneReg 0x1#4 0x2#4) := by decide

theorem test_decode_immediates : decode 0x6A2B#16 = .ok (.ldImm 0xA#4 0x2B#8) ∧
    decode 0x7105#16 = .ok (.addImm 0x1#4 0x05#8) ∧ decode 0xC30F#16 = .ok (.rnd 0x3#4 0x0F#8) := by decide

theorem test_decode_logic : decode 0x8120#16 = .ok (.ldReg 0x1#4 0x2#4) ∧ decode 0x8121#16 = .ok (.orReg 0x1#4 0x2#4) ∧
    decode 0x8122#16 = .ok (.andReg 0x1#4 0x2#4) ∧ decode 0x8123#16 = .ok (.xorReg 0x1#4 0x2#4) := by decide

theorem test_decode_arithmetic : decode 0x8124#16 = .ok (.addReg 0x1#4 0x2#4) ∧ decode 0x8125#16 = .ok (.sub 0x1#4 0x2#4) ∧
    decode 0x8126#16 = .ok (.shr 0x1#4 0x2#4) ∧ decode 0x8127#16 = .ok (.subn 0x1#4 0x2#4) ∧
    decode 0x812E#16 = .ok (.shl 0x1#4 0x2#4) := by decide

theorem test_decode_index_and_draw : decode 0xA123#16 = .ok (.ldI 0x123#12) ∧
    decode 0xD123#16 = .ok (.drw 0x1#4 0x2#4 0x3#4) := by decide

theorem test_decode_keys : decode 0xE19E#16 = .ok (.skp 0x1#4) ∧ decode 0xE1A1#16 = .ok (.sknp 0x1#4) ∧
    decode 0xF30A#16 = .ok (.ldVxK 0x3#4) := by decide

theorem test_decode_timers : decode 0xF207#16 = .ok (.ldVxDt 0x2#4) ∧ decode 0xF615#16 = .ok (.ldDtVx 0x6#4) ∧
    decode 0xF718#16 = .ok (.ldStVx 0x7#4) := by decide

theorem test_decode_memory : decode 0xF21E#16 = .ok (.addI 0x2#4) ∧ decode 0xF429#16 = .ok (.ldF 0x4#4) ∧
    decode 0xF533#16 = .ok (.ldB 0x5#4) ∧ decode 0xF255#16 = .ok (.ldMemVx 0x2#4) ∧
    decode 0xF265#16 = .ok (.ldVxMem 0x2#4) := by decide

/-- The unknown words of the test vectors, one per family with a fixed sub-field (R98). -/
theorem test_decode_unknown : decode 0x5121#16 = .error (.unknownOpcode 0x5121#16) ∧
    decode 0x9121#16 = .error (.unknownOpcode 0x9121#16) ∧ decode 0x8128#16 = .error (.unknownOpcode 0x8128#16) ∧
    decode 0xE19F#16 = .error (.unknownOpcode 0xE19F#16) ∧ decode 0xF000#16 = .error (.unknownOpcode 0xF000#16) := by decide

/-- Bytes are read two at a time, the high byte first (R65, R90); a single byte is no instruction. -/
theorem test_decode_bytes : decodeBytes [0x12#8, 0x00#8, 0xFF#8] = .ok (.jp 0x200#12, [0xFF#8]) ∧
    decodeBytes [0x12#8] = .error .tooShort := by decide

/-- The opcode table numbers a word's bits from the least significant one. -/
theorem test_table_word : decodeTableWord 16 0x8126 = some (.shr 0x1#4 0x2#4) ∧ decodeTableWord 16 0x5121 = none := by decide

theorem test_encode_vectors : encode (.drw 0x1#4 0x2#4 0x3#4) = 0xD123#16 ∧ encode (.shl 0x1#4 0x0#4) = 0x810E#16 ∧
    encode (.call 0x300#12) = 0x2300#16 ∧ encodeBytes (.ldMemVx 0x2#4) = [0xF2#8, 0x55#8] := by decide

/-- The words 0x00E0 and 0x00EE are CLS and RET, so the SYS terms with those addresses are refused (R95). -/
theorem test_wellformed_refuses_sys : (Instr.sys 0x0E0#12).wellFormed = false ∧ (Instr.sys 0x0EE#12).wellFormed = false ∧
    (Instr.sys 0x0E1#12).wellFormed = true := by decide

/-! ## One step: `after w s p` runs the word `w` where `s` fetches and asks `p` of the next state -/

/-- The step that runs the word `w` from `s` answers a next state of which `p` holds. -/
def after (w : Nat) (s : State) (p : State → Bool) : Bool :=
  match step (s.withFetchWord 16 w) with
  | .next t => p t
  | .fault _ => false
  | .refused _ => false

/-- Reset with `V[1] = a` and `V[2] = b`. -/
def v12 (a b : Byte) : State := (State.reset.writeV 0x1#4 a).writeV 0x2#4 b

/-- Reset with other parameters. -/
def withParams (p : Params) (s : State) : State := { s with params := p }

/-- Reset with `V[0..2] = 11 22 33` and `I = a`. -/
def v012 (a : Word) : State := ((v12 0x22#8 0x33#8).writeV 0x0#4 0x11#8).setI a

/-- Reset with `bytes` in memory from `a`. -/
def withBytes (a : Nat) (bytes : List Byte) (s : State) : State := s.setMem (s.mem.writeList a bytes)

/-- The lit cells of a display row are exactly those of the listed columns. -/
def lit (r : Fin 32) (columns : List Nat) (d : Display) : Bool :=
  (List.finRange 64).all fun c => d.pixel r c == columns.contains c.val

/-- Reset with the cells of the corners (0,0) and (31,63) lit. -/
def cornersLit : State := State.reset.setDisp ((Display.clear.toggle 0 0).toggle 31 63)

/-- Reset with key 5 down. -/
def key5 : State := (State.reset.writeV 0x1#4 0x05#8).setKeys ((Vector.replicate 16 false).set 5 true)

theorem test_sys_nop : after 0x0123 State.reset (fun t => t.pc == 0x202#16 && t.status == .ok) = true := by decide

theorem test_sys_halt : after 0x0123 (withParams { defaultParams with sysMode := .halt } State.reset) (fun t =>
    t.status == .error (.unknownOpcode 0x0123#16 0x200#16) && t.pc == 0x202#16) = true := by decide

theorem test_cls : after 0x00E0 cornersLit (fun t => lit 0 [] t.disp && lit 31 [] t.disp && t.pc == 0x202#16) = true := by decide

theorem test_ret : after 0x00EE (State.reset.setStack [0x202#16]) (fun t => t.pc == 0x202#16 && t.stack == []) = true := by decide

theorem test_ret_empty : after 0x00EE State.reset (fun t =>
    t.status == .error (.stackUnderflow 0x200#16) && t.pc == 0x202#16) = true := by decide

theorem test_jp : after 0x1ABC State.reset (fun t => t.pc == 0xABC#16) = true := by decide

theorem test_jp_odd : after 0x1201 State.reset (fun t => t.pc == 0x201#16 && t.status == .ok) = true := by decide

theorem test_call_at_top : after 0x2300 (State.reset.setPc 0xFFE#16) (fun t =>
    t.pc == 0x300#16 && t.stack == [0x1000#16]) = true := by decide

theorem test_call_full : after 0x2300 (State.reset.setStack (List.replicate 16 0x202#16)) (fun t =>
    t.status == .error (.stackOverflow 0x200#16) && t.pc == 0x202#16) = true := by decide

theorem test_se_imm_equal : after 0x3342 (State.reset.writeV 0x3#4 0x42#8) (fun t => t.pc == 0x204#16) = true := by decide

theorem test_se_imm_not_equal : after 0x3342 (State.reset.writeV 0x3#4 0x41#8) (fun t => t.pc == 0x202#16) = true := by decide

theorem test_sne_imm_not_equal : after 0x4342 (State.reset.writeV 0x3#4 0x41#8) (fun t => t.pc == 0x204#16) = true := by decide

theorem test_sne_imm_equal : after 0x4342 (State.reset.writeV 0x3#4 0x42#8) (fun t => t.pc == 0x202#16) = true := by decide

theorem test_se_reg_equal : after 0x5120 (v12 0x07#8 0x07#8) (fun t => t.pc == 0x204#16) = true := by decide

theorem test_se_reg_not_equal : after 0x5120 (v12 0x07#8 0x08#8) (fun t => t.pc == 0x202#16) = true := by decide

theorem test_sne_reg_not_equal : after 0x9120 (v12 0x07#8 0x08#8) (fun t => t.pc == 0x204#16) = true := by decide

theorem test_sne_reg_same : after 0x9110 (v12 0x09#8 0x00#8) (fun t => t.pc == 0x202#16) = true := by decide

theorem test_jp_v0 : after 0xBFFF (State.reset.writeV 0x0#4 0xFF#8) (fun t => t.pc == 0x10FE#16) = true := by decide

theorem test_jp_v0_mask : after 0xBFFF (withParams { defaultParams with jpV0Mask := .mask12 }
    (State.reset.writeV 0x0#4 0xFF#8)) (fun t => t.pc == 0x0FE#16) = true := by decide

theorem test_ld_imm : after 0x6A2B State.reset (fun t => t.readV 0xA#4 == 0x2B#8 && t.readV 0x2#4 == 0x00#8) = true := by decide

theorem test_add_imm_wraps : after 0x7102 ((v12 0xFF#8 0x00#8).writeV vf 0x55#8) (fun t =>
    t.readV 0x1#4 == 0x01#8 && t.readV vf == 0x55#8) = true := by decide

theorem test_ld_reg : after 0x8120 (v12 0x00#8 0x99#8) (fun t => t.readV 0x1#4 == 0x99#8) = true := by decide

theorem test_or : after 0x8121 ((v12 0x0F#8 0xF0#8).writeV vf 0x55#8) (fun t =>
    t.readV 0x1#4 == 0xFF#8 && t.readV vf == 0x55#8) = true := by decide

theorem test_and : after 0x8122 ((v12 0x3C#8 0x0F#8).writeV vf 0x55#8) (fun t =>
    t.readV 0x1#4 == 0x0C#8 && t.readV vf == 0x55#8) = true := by decide

theorem test_xor : after 0x8123 ((v12 0x3C#8 0x0F#8).writeV vf 0x55#8) (fun t =>
    t.readV 0x1#4 == 0x33#8 && t.readV vf == 0x55#8) = true := by decide

theorem test_xor_zero_vf : after 0x8123 (withParams { defaultParams with logicVf := .zero }
    ((v12 0x3C#8 0x0F#8).writeV vf 0x55#8)) (fun t => t.readV 0x1#4 == 0x33#8 && t.readV vf == 0x00#8) = true := by decide

theorem test_add_carry : after 0x8124 (v12 0xFF#8 0x01#8) (fun t =>
    t.readV 0x1#4 == 0x00#8 && t.readV vf == 0x01#8) = true := by decide

theorem test_add_flag_wins : after 0x8F14 ((v12 0x02#8 0x00#8).writeV vf 0xFF#8) (fun t => t.readV vf == 0x01#8) = true := by decide

theorem test_sub_borrow : after 0x8125 (v12 0x05#8 0x07#8) (fun t =>
    t.readV 0x1#4 == 0xFE#8 && t.readV vf == 0x00#8) = true := by decide

theorem test_sub_equal : after 0x8125 (v12 0x05#8 0x05#8) (fun t =>
    t.readV 0x1#4 == 0x00#8 && t.readV vf == 0x01#8) = true := by decide

theorem test_shr_odd : after 0x8106 (v12 0x05#8 0x00#8) (fun t =>
    t.readV 0x1#4 == 0x02#8 && t.readV vf == 0x01#8) = true := by decide

theorem test_shr_ignores_y : after 0x8126 (v12 0x04#8 0xFF#8) (fun t =>
    t.readV 0x1#4 == 0x02#8 && t.readV vf == 0x00#8) = true := by decide

theorem test_subn : after 0x8127 (v12 0x05#8 0x07#8) (fun t =>
    t.readV 0x1#4 == 0x02#8 && t.readV vf == 0x01#8) = true := by decide

theorem test_subn_borrow : after 0x8127 (v12 0x07#8 0x05#8) (fun t =>
    t.readV 0x1#4 == 0xFE#8 && t.readV vf == 0x00#8) = true := by decide

theorem test_shl_carry : after 0x810E (v12 0x81#8 0x00#8) (fun t =>
    t.readV 0x1#4 == 0x02#8 && t.readV vf == 0x01#8) = true := by decide

theorem test_shl_flag_wins : after 0x8F0E (State.reset.writeV vf 0x80#8) (fun t => t.readV vf == 0x01#8) = true := by decide

/-- RND with the draw A7 of the test vectors. -/
theorem test_rnd_draw : (rndWith 0xA7#8 0x3#4 0x0F#8 State.reset).readV 0x3#4 = 0x07#8 := by decide

/-- RND with `nn = 00` gives 0 whatever the draw. -/
theorem test_rnd_zero : (rndWith (Config.rngDraw 0) 0x3#4 0x00#8 State.reset).readV 0x3#4 = 0x00#8 := by
  simp [rndWith, State.readV, State.writeV, State.setV, State.bumpFree]

theorem test_ld_i : after 0xA123 State.reset (fun t => t.i == 0x123#16) = true := by decide

theorem test_add_i : after 0xF21E ((v12 0x00#8 0x10#8).setI 0x300#16) (fun t => t.i == 0x310#16) = true := by decide

theorem test_add_i_wraps : after 0xF21E ((v12 0x00#8 0xFF#8).setI 0xF80#16) (fun t =>
    t.i == 0x07F#16 && t.readV vf == 0x00#8) = true := by decide

theorem test_ld_f : after 0xF429 (State.reset.writeV 0x4#4 0x0B#8) (fun t => t.i == 0x087#16) = true := by decide

theorem test_ld_f_low_nibble : after 0xF429 (State.reset.writeV 0x4#4 0x1A#8) (fun t => t.i == 0x082#16) = true := by decide

theorem test_ld_b : after 0xF533 ((State.reset.writeV 0x5#4 0x9C#8).setI 0xFFD#16) (fun t =>
    t.mem.readList 0xFFD 3 == [0x01#8, 0x05#8, 0x06#8]) = true := by decide

theorem test_ld_b_off_the_top : after 0xF533 ((State.reset.writeV 0x5#4 0xFF#8).setI 0xFFE#16) (fun t =>
    t.status == .error (.outOfBounds 0x1000#16) && t.mem.read 0xFFE == 0x00#8) = true := by decide

theorem test_store_registers : after 0xF255 (v012 0x400#16) (fun t =>
    t.mem.readList 0x400 4 == [0x11#8, 0x22#8, 0x33#8, 0x00#8] && t.i == 0x400#16) = true := by decide

theorem test_store_registers_increment : after 0xF255 (withParams { defaultParams with memIIncrement := .xPlus1 }
    (v012 0x400#16)) (fun t => t.mem.read 0x402 == 0x33#8 && t.i == 0x403#16) = true := by decide

theorem test_load_registers : after 0xF265 ((withBytes 0x400 [0x11#8, 0x22#8, 0x33#8, 0x44#8] State.reset).setI 0x400#16)
    (fun t => [0x0#4, 0x1#4, 0x2#4, 0x3#4].map t.readV == [0x11#8, 0x22#8, 0x33#8, 0x00#8]) = true := by decide

theorem test_load_registers_off_the_top : after 0xFF65 (State.reset.setI 0xFF1#16) (fun t =>
    t.status == .error (.outOfBounds 0x1000#16)) = true := by decide

theorem test_drw_wraps : after 0xD121 ((withBytes 0x300 [0xFF#8] (v12 0x3C#8 0x05#8)).setI 0x300#16) (fun t =>
    lit 5 [60, 61, 62, 63, 0, 1, 2, 3] t.disp && lit 6 [] t.disp && t.readV vf == 0x00#8) = true := by decide

theorem test_drw_collision : after 0xD121 ((withBytes 0x300 [0x81#8] cornersLit).setI 0x300#16) (fun t =>
    lit 0 [7] t.disp && lit 31 [63] t.disp && t.readV vf == 0x01#8) = true := by decide

theorem test_drw_clips : after 0xD121 ((withBytes 0x300 [0xFF#8] (withParams { defaultParams with drawEdge := .clip }
    (v12 0x3C#8 0x05#8))).setI 0x300#16) (fun t => lit 5 [60, 61, 62, 63] t.disp) = true := by decide

theorem test_skp_down : after 0xE19E key5 (fun t => t.pc == 0x204#16) = true := by decide

theorem test_skp_up : after 0xE19E (v12 0x05#8 0x00#8) (fun t => t.pc == 0x202#16) = true := by decide

theorem test_sknp_up : after 0xE1A1 (v12 0x05#8 0x00#8) (fun t => t.pc == 0x204#16) = true := by decide

theorem test_sknp_down : after 0xE1A1 key5 (fun t => t.pc == 0x202#16) = true := by decide

theorem test_key_wait : after 0xF30A State.reset (fun t =>
    t.status == .awaitingKey && t.wait == some 0x3#4 && t.pc == 0x202#16) = true := by decide

theorem test_key_wait_at_instruction : after 0xF30A (withParams { defaultParams with keywaitPc := .atInstruction } State.reset)
    (fun t => t.wait == some 0x3#4 && t.pc == 0x200#16) = true := by decide

theorem test_ld_dt : after 0xF615 (State.reset.writeV 0x6#4 0x3C#8) (fun t => t.dt == 0x3C#8) = true := by decide

theorem test_ld_vx_dt : after 0xF207 (State.reset.setDt 0x10#8) (fun t => t.readV 0x2#4 == 0x10#8) = true := by decide

theorem test_ld_st : after 0xF718 (State.reset.writeV 0x7#4 0x05#8) (fun t => t.st == 0x05#8) = true := by decide

theorem test_unknown_halts : after 0x8128 State.reset (fun t =>
    t.status == .error (.unknownOpcode 0x8128#16 0x200#16) && t.pc == 0x202#16) = true := by decide

/-- A fetch at 0xFFF fails on its second byte, with nothing advanced. -/
theorem test_fetch_fails : (match step (State.reset.setPc 0xFFF#16) with
    | .next t => t.status == .error (.outOfBounds 0x1000#16) && t.pc == 0xFFF#16
    | _ => false) = true := by decide

/-! ## Host transactions -/

/-- The transaction answers a response and a state of which `p` holds. -/
def responds (tr : Transaction) (s : State) (p : Response → State → Bool) : Bool :=
  match transact tr s with
  | .next (a, t) => p a t
  | .fault _ => false
  | .refused _ => false

/-- The bulk write that fits at the top of memory, and the one that does not (W2). -/
theorem test_host_write : responds (.write [0x01#8, 0x02#8] 0xFFE) State.reset (fun a t =>
      a == .written && t.mem.readList 0xFFE 2 == [0x01#8, 0x02#8]) = true ∧
    responds (.write [0x01#8, 0x02#8] 0xFFF) State.reset (fun a t =>
      a == .rejected (.memoryOverflow 0xFFF 2) && t == State.reset) = true := by decide

/-- A timer at 0 stays at 0 (W8). -/
theorem test_timer_floor : responds .timerTick (State.reset.setSt 0x05#8) (fun _ t =>
    t.dt == 0x00#8 && t.st == 0x04#8) = true := by decide

theorem test_notify_key : responds (.notifyKey 0xC#4) (State.reset.setWait (some 0xF#4)) (fun _ t =>
    t.readV vf == 0x0C#8 && t.wait == none) = true := by decide

/-- Constructing with the canonical font and the spec's parameters gives the reset state (R390, W1). -/
theorem test_construct_reset : construct defaultParams ⟨fontTable.toArray, by decide⟩ = State.reset := by decide

/-! ## Witnesses: for every obligation with hypotheses, states and operands that meet them, at the boundaries of each clause -/

/-- Reset with the word `w` at `pc`. -/
def ready (w : Nat) : State := State.reset.withFetchWord 16 w

/-- The core halted by a RET on an empty stack. -/
def halted : State := raise (.stackUnderflow 0x200#16) (State.reset.setPc 0x202#16)

/-- The core waiting for a key for V3. -/
def waiting : State := (State.reset.setPc 0x1000#16).setWait (some 0x3#4)

/-- A state at the bounds of the invariant: `I = 0xFFF` and 16 return addresses of 0x1000. -/
def bounds (w : Nat) : State := ((ready w).setI 0xFFF#16).setStack (List.replicate 16 0x1000#16)

theorem ready_ready (w : Nat) : (ready w).Ready := ⟨rfl, rfl⟩

theorem bounds_halt (o l : Nat) : (bounds 0x6A2B).run ≠ .halted (.memoryOverflow o l) := by
  rw [show (bounds 0x6A2B).run = .running from rfl]; simp

theorem waiting_halt (o l : Nat) : waiting.run ≠ .halted (.memoryOverflow o l) := by
  rw [show waiting.run = .running from rfl]; simp

theorem bounds_stack : ∀ a ∈ List.replicate 16 0x1000#16, a.toNat ≤ 0x1000 := by simp

theorem bounds_inv : (bounds 0x6A2B).Inv :=
  ⟨by decide, by decide, by decide, by decide, bounds_stack, fun _ => rfl, fun _ => by decide, bounds_halt⟩

theorem waiting_stack : ∀ a ∈ ([] : List Word), a.toNat ≤ 0x1000 := by simp

theorem waiting_inv : waiting.Inv :=
  ⟨by decide, by decide, by decide, by decide, waiting_stack, fun _ => rfl, fun _ => by decide, waiting_halt⟩

theorem witness_ResetHoldsTheTableValues : State.reset.mem.read 0x04F = 0x00#8 ∧ State.reset.mem.read 0x0A0 = 0x00#8 ∧
    State.reset.mem.read 0x050 = 0xF0#8 ∧ State.reset.mem.read 0x09F = 0x80#8 := by decide

/-- A font other than the canonical one. -/
theorem witness_ConstructionLoadsAnyFont :
    [0x04F, 0x050, 0x09F, 0x0A0].map (construct defaultParams (Vector.replicate 80 0x5A#8)).mem.read =
      [0x00#8, 0x5A#8, 0x5A#8, 0x00#8] := by decide

theorem witness_StepKeepsInvariant : (bounds 0x6A2B).Inv ∧ (∃ t, step (bounds 0x6A2B) = .next t) ∧ waiting.Inv ∧
    ∃ t, step waiting = .next t :=
  ⟨bounds_inv, ⟨_, rfl⟩, waiting_inv, ⟨_, rfl⟩⟩

/-- A construction, a transaction of each kind from a state at the bounds of the invariant, and a reached state. -/
theorem witness_ReachableStatesSatisfyInvariant :
    (waiting.Inv ∧ (∃ a u, transact .step waiting = .next (a, u)) ∧ (∃ a u, transact .timerTick waiting = .next (a, u)) ∧
      (∃ a u, transact (.write [0x01#8] 0xFFF) waiting = .next (a, u)) ∧
      (∃ a u, transact (.setKeys (Vector.replicate 16 true)) waiting = .next (a, u)) ∧
      (∃ a u, transact (.notifyKey 0xF#4) waiting = .next (a, u)) ∧ ∃ a u, transact .readState waiting = .next (a, u)) ∧
    ∃ u, Reachable u ∧ u.keys = Vector.replicate 16 true :=
  ⟨⟨waiting_inv, ⟨_, _, rfl⟩, ⟨_, _, rfl⟩, ⟨_, _, rfl⟩, ⟨_, _, rfl⟩, ⟨_, _, rfl⟩, _, _, rfl⟩, _,
    .transact (.setKeys (Vector.replicate 16 true)) (.construct defaultParams (Vector.replicate 80 0x5A#8)) rfl, rfl⟩

theorem witness_DecodeOfEncodeIsIdentity : (Instr.sys 0x0E1#12).wellFormed = true ∧
    (Instr.drw 0xF#4 0x0#4 0xF#4).wellFormed = true := by decide

theorem witness_EncodeOfDecodeIsIdentity : decode 0x00E1#16 = .ok (.sys 0x0E1#12) ∧
    decode 0x8FF6#16 = .ok (.shr 0xF#4 0xF#4) := by decide

/-- A row that is hit, and a word that is rejected. -/
theorem witness_DecodeAgreesWithOpcodeTable : decode 0xF065#16 = .ok (.ldVxMem 0x0#4) ∧
    decode 0xF066#16 = .error (.unknownOpcode 0xF066#16) ∧ ⟨"LD_Vx___I", 0xF065, 0xF0FF, []⟩ ∈ opcodeRows := by decide

/-- At the last address a fetch can be made, with a word that decodes and one that does not. -/
theorem witness_StepExecutesTheDecodedInstruction :
    let s := (State.reset.setPc 0xFFE#16).withFetchWord 16 0x6A2B
    let u := (State.reset.setPc 0xFFE#16).withFetchWord 16 0x5121
    (s.Ready ∧ s.pc.toNat + 1 < 4096 ∧ decode (s.mem.read 0xFFE ++ s.mem.read 0xFFF) = .ok (.ldImm 0xA#4 0x2B#8)) ∧
      u.Ready ∧ u.pc.toNat + 1 < 4096 ∧
        decode (u.mem.read 0xFFE ++ u.mem.read 0xFFF) = .error (.unknownOpcode 0x5121#16) :=
  ⟨⟨⟨rfl, rfl⟩, by decide, by decide⟩, ⟨rfl, rfl⟩, by decide, by decide⟩

theorem witness_HaltedStepReportsTheError : halted.run = .halted (.stackUnderflow 0x200#16) := rfl

theorem witness_FetchFailsAtTheFirstInvalidAddress : (State.reset.setPc 0xFFF#16).Ready ∧
    0xFFF ≤ (State.reset.setPc 0xFFF#16).pc.toNat ∧ (State.reset.setPc 0xFFE#16).Ready ∧
    (State.reset.setPc 0xFFE#16).pc.toNat < 0xFFF :=
  ⟨⟨rfl, rfl⟩, by decide, ⟨rfl, rfl⟩, by decide⟩

theorem witness_UnknownWordHalts : (ready 0x5121).Ready ∧ fetch (ready 0x5121) = .ok 0x5121#16 ∧
    decode 0x5121#16 = .error (.unknownOpcode 0x5121#16) :=
  ⟨⟨rfl, rfl⟩, by decide, by decide⟩

/-- An error at the fetch and an error after it. -/
theorem witness_ErrorsArePrecise :
    ((State.reset.setPc 0xFFF#16).run = .running ∧ 0xFFF ≤ (State.reset.setPc 0xFFF#16).pc.toNat ∧
      ∃ t, step (State.reset.setPc 0xFFF#16) = .next t ∧ t.run = .halted (.outOfBounds 0x1000#16)) ∧
    (ready 0x00EE).run = .running ∧ (ready 0x00EE).pc.toNat < 0xFFF ∧
      ∃ t, step (ready 0x00EE) = .next t ∧ t.run = .halted (.stackUnderflow 0x200#16) :=
  ⟨⟨rfl, by decide, _, rfl, by decide⟩, rfl, by decide, _, rfl, by decide⟩

theorem witness_HaltedIsTerminal : halted.run = .halted (.stackUnderflow 0x200#16) := rfl

theorem witness_KeyWaitHoldsUntilNotified : waiting.run = .running ∧ waiting.wait = some 0x3#4 ∧
    ∀ k, Transaction.notifyKey k ∉ [Transaction.step, .timerTick, .setKeys (Vector.replicate 16 true)] :=
  ⟨rfl, rfl, by simp⟩

/-- A state that can not refuse, and one that does. -/
theorem witness_StepAlwaysAnswersANextState : (ready 0xE19E).params.keyIndexOor ≠ .refuse ∧
    step (withParams { defaultParams with keyIndexOor := .refuse } ((ready 0xE19E).writeV 0x1#4 0x10#8)) =
      .refused (.keyIndexOutOfRange 0x10#8) := ⟨by decide, rfl⟩

theorem witness_NoErrorInstructionsComplete : CannotFail State.reset (.sys 0x123#12) ∧
    CannotFail (withParams { defaultParams with keyIndexOor := .refuse } (State.reset.writeV 0x1#4 0x0F#8)) (.skp 0x1#4) ∧
    CannotFail (State.reset.writeV 0x1#4 0x10#8) (.sknp 0x1#4) :=
  ⟨rfl, .inl (by decide), .inr (by decide)⟩

theorem witness_SysFollowsItsMode : State.reset.params.sysMode = .nop ∧
    (withParams { defaultParams with sysMode := .halt } State.reset).params.sysMode = .halt := ⟨rfl, rfl⟩

/-- The core of W9, and a display that is clear already. -/
theorem witness_ClsClearsTheDisplay : (ready 0x00E0).Ready ∧ (ready 0x00E0).pc = 0x200#16 ∧
    (ready 0x00E0).mem.read 0x200 = 0x00#8 ∧ (ready 0x00E0).mem.read 0x201 = 0xE0#8 ∧
    ∀ r c, State.reset.disp.pixel r c = false :=
  ⟨⟨rfl, rfl⟩, rfl, by decide, by decide, Display.pixel_clear⟩

/-- A jump to itself (W10); the targets 0xFFF and 0xFFE meet the two fetch clauses. -/
theorem witness_JpSetsPc : (ready 0x1200).Ready ∧ (ready 0x1200).pc.toNat = (0x200#12).toNat ∧
    fetch (ready 0x1200) = .ok (0x1#4 ++ 0x200#12) ∧ 0xFFE#12 ≠ 0xFFF#12 :=
  ⟨⟨rfl, rfl⟩, by decide, by decide, by decide⟩

theorem witness_CallPushesTheReturnAddress : (State.reset.setStack (List.replicate 15 0x202#16)).stack.length < 16 ∧
    (State.reset.setStack (List.replicate 16 0x202#16)).stack.length = 16 := by decide

theorem witness_RetPopsTheReturnAddress : (State.reset.setStack [0x202#16]).stack = [0x202#16] ∧ State.reset.stack = [] ∧
    State.reset.stack.length < 16 ∧ ∃ t, exec (.call 0x300#12) State.reset = .next t ∧ t.stack = [0x200#16] :=
  ⟨rfl, rfl, by decide, _, rfl, rfl⟩

theorem witness_RegisterSkips : (0x7#4 : RegIdx) = 0x7#4 ∧ State.reset.readV 0x1#4 = State.reset.readV 0x2#4 ∧
    (v12 0x07#8 0x08#8).readV 0x1#4 ≠ (v12 0x07#8 0x08#8).readV 0x2#4 := by decide

theorem witness_JumpV0Target : State.reset.params.jpV0Mask = .none ∧
    (withParams { defaultParams with jpV0Mask := .mask12 } State.reset).params.jpV0Mask = .mask12 := ⟨rfl, rfl⟩

/-- Each clause's word, fetched by a ready core in a state that meets the clause. -/
theorem witness_AdvanceThenOverwrite :
    fetch (ready 0x2300) = .ok 0x2300#16 ∧ decode 0x2300#16 = .ok (.call 0x300#12) ∧ (ready 0x2300).stack.length < 16 ∧
    decode 0x3300#16 = .ok (.seImm 0x3#4 0x00#8) ∧ (ready 0x3300).readV 0x3#4 = 0x00#8 ∧
    decode 0x4342#16 = .ok (.sneImm 0x3#4 0x42#8) ∧ (ready 0x4342).readV 0x3#4 ≠ 0x42#8 ∧
    decode 0x5120#16 = .ok (.seReg 0x1#4 0x2#4) ∧ (ready 0x5120).readV 0x1#4 = (ready 0x5120).readV 0x2#4 ∧
    decode 0x9120#16 = .ok (.sneReg 0x1#4 0x2#4) ∧ ((ready 0x9120).writeV 0x1#4 0x07#8).readV 0x1#4 ≠ 0x00#8 ∧
    decode 0xE19E#16 = .ok (.skp 0x1#4) ∧ (key5.readV 0x1#4).toNat = (0x5#4).toNat ∧ key5.keyDown 0x5#4 = true ∧
    decode 0xE1A1#16 = .ok (.sknp 0x1#4) ∧ ((v12 0x0F#8 0#8).readV 0x1#4).toNat = (0xF#4).toNat ∧
    (v12 0x0F#8 0#8).keyDown 0xF#4 = false ∧
    decode 0x1200#16 = .ok (.jp 0x200#12) ∧ (0x200#12).toNat = (ready 0x1200).pc.toNat ∧
    decode 0xB300#16 = .ok (.jpV0 0x300#12) ∧ decode 0x00EE#16 = .ok .ret ∧
    ((ready 0x00EE).setStack [0x202#16]).stack = [0x202#16] := by decide

theorem witness_AddSetsCarry : (0xE#4 : RegIdx) ≠ vf := by decide

theorem witness_SubSetsNoBorrow : (0x0#4 : RegIdx) ≠ vf := by decide

theorem witness_SubnSetsNoBorrow : (0x1#4 : RegIdx) ≠ vf := by decide

theorem witness_LogicFollowsLogicVf : State.reset.params.logicVf = .keep ∧
    (withParams { defaultParams with logicVf := .zero } State.reset).params.logicVf = .zero ∧ (0xE#4 : RegIdx) ≠ vf := by decide

theorem witness_ShiftsUseVxAndTheShiftedOutBit : (0xE#4 : RegIdx) ≠ vf := by decide

/-- The last range that fits and the first that does not. -/
theorem witness_LdBStoresDecimalDigits :
    ((State.reset.setI 0xFFD#16).mem.wf = true ∧ (State.reset.setI 0xFFD#16).base + 3 ≤ 4096) ∧
    (State.reset.setI 0xFFE#16).mem.wf = true ∧ (State.reset.setI 0xFFE#16).i.toNat ≤ 0xFFF ∧
      4096 < (State.reset.setI 0xFFE#16).base + 3 := by decide

theorem witness_StoreRegistersAtI :
    ((v012 0xFF0#16).mem.wf = true ∧ (v012 0xFF0#16).base + (0xF#4).toNat + 1 ≤ 4096) ∧
    ((v012 0xFFF#16).i.toNat ≤ 0xFFF ∧ 4096 < (v012 0xFFF#16).base + (0x1#4).toNat + 1) ∧
    (v012 0xFF0#16).params.memIIncrement = .none ∧
    (withParams { defaultParams with memIIncrement := .xPlus1 } (v012 0xFF0#16)).params.memIIncrement = .xPlus1 := by decide

theorem witness_LoadRegistersFromI :
    (v012 0xFFF#16).base + (0x0#4).toNat + 1 ≤ 4096 ∧ (v012 0xFF1#16).i.toNat ≤ 0xFFF ∧
    4096 < (v012 0xFF1#16).base + (0xF#4).toNat + 1 ∧ (0x2#4 : RegIdx) ≤ 0x2#4 ∧ ¬ (0x3#4 : RegIdx) ≤ 0x2#4 := by decide

/-- The store at 0x400, and a later state with its memory, its `I` and other registers. -/
theorem witness_LoadAfterStoreRestoresRegisters :
    (v012 0x400#16).mem.wf = true ∧ (v012 0x400#16).base + (0x2#4).toNat + 1 ≤ 4096 ∧
    ∃ t, exec (.ldMemVx 0x2#4) (v012 0x400#16) = .next t ∧ (t.writeV 0x1#4 0x77#8).mem = t.mem ∧
      (t.writeV 0x1#4 0x77#8).i = (v012 0x400#16).i :=
  ⟨by decide, by decide, _, rfl, rfl, by decide⟩

theorem witness_SpriteXorsEachPixel : (List.replicate 15 0xFF#8).length ≤ 15 ∧ ([] : List Byte).length ≤ 15 := by decide

/-- A lit pixel that goes off, and a sprite at the end of memory. -/
theorem witness_CollisionIsALitPixelTurnedOff : [0x80#8].length ≤ 15 ∧ cornersLit.disp.pixel 0 0 = true ∧
    (drawSprite .wrap 0#8 0#8 [0x80#8] cornersLit.disp).1.pixel 0 0 = false ∧
    (State.reset.setI 0xFFF#16).base + (0x1#4).toNat ≤ 4096 := by decide

theorem witness_DrawingTwiceRestoresTheDisplay : [0xFF#8].length ≤ 15 ∧ Display.clear.pixel 0 0 = false ∧
    (drawSprite .wrap 0#8 0#8 [0xFF#8] Display.clear).1.pixel 0 0 = true := by decide

/-- The last sprite that fits, an empty one, and the first that does not. -/
theorem witness_DrwDrawsAndSetsVf : (State.reset.setI 0xFFF#16).i.toNat ≤ 0xFFF ∧
    (State.reset.setI 0xFFF#16).base + (0x1#4).toNat ≤ 4096 ∧ (0x0#4 : Nibble) = 0#4 ∧ (0x2#4 : Nibble) ≠ 0#4 ∧
    4096 < (State.reset.setI 0xFFF#16).base + (0x2#4).toNat := by decide

/-- The index 0xF names a key; 0x10 does not, under each of the four values of KEY_INDEX_OOR. -/
theorem witness_KeySkips : (v12 0x0F#8 0#8).readV 0x1#4 ≤ 0x0F#8 ∧ 0x0F#8 < (v12 0x10#8 0#8).readV 0x1#4 ∧
    (v12 0x10#8 0#8).params.keyIndexOor = .free ∧
    [KeyIndexOor.maskLow4, .notPressed, .refuse].map
      (fun k => (withParams { defaultParams with keyIndexOor := k } (v12 0x10#8 0#8)).params.keyIndexOor) =
        [.maskLow4, .notPressed, .refuse] := by decide

theorem witness_KeyWaitBegins : State.reset.params.keywaitPc = .postAdvance ∧ State.reset.run = .running ∧
    (withParams { defaultParams with keywaitPc := .atInstruction } State.reset).params.keywaitPc = .atInstruction := by decide

theorem witness_KeyTransactions : waiting.run = .running ∧ waiting.wait = some 0x3#4 ∧ halted.run ≠ .running ∧
    State.reset.wait = none := by decide

/-- The longest write at 0x200 and at the top, and the first that runs past 4096. -/
theorem witness_HostWriteIsAllOrNothing : 0x200 + (List.replicate 3584 0xAA#8).length ≤ 4096 ∧
    0x1000 + ([] : List Byte).length ≤ 4096 ∧ 4096 < 0xFFF + [0x01#8, 0x02#8].length ∧ State.reset.mem.wf = true := by
  refine ⟨?_, by decide, by decide, rfl⟩
  rw [List.length_replicate]

theorem witness_SingleByteAccess : (0xFFF#16).toNat < 4096 ∧ 4096 ≤ (0x1000#16).toNat ∧ State.reset.mem.wf = true ∧
    (State.reset.setPc 0x1000#16).Ready ∧ fetch (State.reset.setPc 0x1000#16) = .error (.outOfBounds 0x1000#16) :=
  ⟨by decide, by decide, by decide, ⟨rfl, rfl⟩, by decide⟩

theorem witness_EqualReadsEqualMemory : Memory.wf [(0x050, 0x00#8), (0xFFF, 0x01#8)] = true := by decide

theorem witness_StoredWordIsFetched : (State.reset.setPc 0xFFE#16).mem.wf = true ∧
    (State.reset.setPc 0xFFE#16).pc.toNat ≤ 0xFFE ∧ decode 0x6A2B#16 = .ok (.ldImm 0xA#4 0x2B#8) := by decide

theorem witness_StackIsSeenOnlyByCallAndRet : (∀ nnn, Instr.cls ≠ .call nnn) ∧ Instr.cls ≠ .ret ∧
    (∃ t, exec (.call 0x300#12) State.reset = .next t) ∧ ∃ t, exec .ret State.reset = .next t :=
  ⟨by simp, by simp, ⟨_, rfl⟩, _, rfl⟩

theorem witness_DisplayIsSeenOnlyByClsAndDrw : Instr.ret ≠ .cls ∧ (∀ x y n, Instr.ret ≠ .drw x y n) ∧
    (∃ t, exec .cls cornersLit = .next t) ∧ ∃ t, exec (.drw 0x1#4 0x2#4 0x1#4) cornersLit = .next t :=
  ⟨by simp, by simp, ⟨_, rfl⟩, _, rfl⟩

/-- A step that loads DT, and a tick that changes it. -/
theorem witness_TimersAreTouchedOnlyByTheirLoads :
    (∀ x, Instr.cls ≠ .ldDtVx x ∧ Instr.cls ≠ .ldStVx x ∧ Instr.cls ≠ .ldVxDt x) ∧
    (∃ t, exec (.ldVxDt 0x2#4) State.reset = .next t) ∧
    (∃ t, step ((ready 0xF615).writeV 0x6#4 0x3C#8) = .next t ∧ t.dt ≠ State.reset.dt) ∧
    ∃ a u, transact .timerTick (State.reset.setDt 0x01#8) = .next (a, u) ∧ u.dt ≠ 0x01#8 :=
  ⟨by simp, ⟨_, rfl⟩, ⟨_, rfl, by decide⟩, _, _, rfl, by decide⟩

/-- The tone goes off at a tick. -/
theorem witness_ToneSignalIsTheSoundTimer : ∃ a u, transact .timerTick (State.reset.setSt 0x01#8) = .next (a, u) ∧
    toneOn u ≠ toneOn (State.reset.setSt 0x01#8) := ⟨_, _, rfl, by decide⟩

/-- An execution, a step and a notification that each change a register. -/
theorem witness_RegistersChangeOnlyByTheirWriters :
    (∃ t, exec (.ldImm 0xA#4 0x2B#8) State.reset = .next t ∧ t.readV 0xA#4 ≠ State.reset.readV 0xA#4) ∧
    (∃ a u, transact .step (ready 0x6A2B) = .next (a, u) ∧ u.readV 0xA#4 ≠ (ready 0x6A2B).readV 0xA#4) ∧
    ∃ a u, transact (.notifyKey 0x7#4) waiting = .next (a, u) ∧ u.readV 0x3#4 ≠ waiting.readV 0x3#4 :=
  ⟨⟨_, rfl, by decide⟩, ⟨_, _, rfl, by decide⟩, _, _, rfl, by decide⟩

theorem witness_KeysAndParametersStandStill :
    (∃ a u, transact (.setKeys (Vector.replicate 16 true)) State.reset = .next (a, u) ∧ u.keys ≠ State.reset.keys) ∧
    ∀ x, Instr.cls ≠ .skp x ∧ Instr.cls ≠ .sknp x := ⟨⟨_, _, rfl, by decide⟩, by simp⟩

end Sys2Proof.Tests
end

section
/-! The frames of a register write (10_state.md R21). -/

namespace Sys2Proof.Machine

/-- A register write leaves every other register alone. -/
theorem State.onlyRegs_writeV (s : State) (x : RegIdx) (b : Byte) : OnlyRegs [x] s (s.writeV x b) := fun r hr =>
  State.readV_writeV_ne s b (Ne.symm (by simpa using hr))

/-- A register write changes the register file alone. -/
theorem State.onlyChanges_writeV (s : State) (x : RegIdx) (b : Byte) : OnlyChanges [.v] s (s.writeV x b) := by
  intro c hc
  cases c
  case v => simp at hc
  case mem => exact fun _ => rfl
  all_goals rfl

/-- Settles O29, by the read after the write and the two frames. -/
theorem registersReadBack : Obligations.RegistersReadBack := fun s x b =>
  ⟨s.readV_writeV_self x b, s.onlyRegs_writeV x b, s.onlyChanges_writeV x b⟩

end Sys2Proof.Machine
end

section
/-! Noninterference and frames, said once for all instructions: `Instr.footprint` names the components an instruction reads or
writes, a change of the state that is independent of all of them commutes with the instruction's execution, and no
other component changes. -/

namespace Sys2Proof

/-- The components the execute phase of an instruction reads or writes; an instruction that can raise an error writes `run`. -/
def Instr.footprint : Instr → List Machine.Component
  | .sys _ => [.params, .pc, .run]
  | .cls => [.disp]
  | .jp _ => [.pc]
  | .call _ | .ret => [.stack, .pc, .run]
  | .seImm _ _ | .sneImm _ _ | .seReg _ _ | .sneReg _ _ => [.v, .pc]
  | .ldImm _ _ | .addImm _ _ | .ldReg _ _ => [.v]
  | .orReg _ _ | .andReg _ _ | .xorReg _ _ => [.v, .params]
  | .addReg _ _ | .sub _ _ | .subn _ _ | .shr _ _ | .shl _ _ => [.v]
  | .ldI _ => [.i]
  | .addI _ | .ldF _ => [.v, .i]
  | .jpV0 _ => [.v, .params, .pc]
  | .rnd _ _ => [.v, .freeCount]
  | .drw _ _ _ => [.v, .params, .mem, .i, .disp, .run]
  | .skp _ | .sknp _ => [.v, .params, .keys, .freeCount, .pc]
  | .ldVxDt _ | .ldDtVx _ => [.v, .dt]
  | .ldStVx _ => [.v, .st]
  | .ldVxK _ => [.params, .wait, .pc]
  | .ldB _ => [.v, .mem, .i, .run]
  | .ldMemVx _ | .ldVxMem _ => [.v, .params, .mem, .i, .run]

end Sys2Proof

namespace Sys2Proof.Machine

/-- The change `f` of the state leaves the component alone, and it makes no difference whether the component is replaced before
`f` or after it. -/
def Component.IndependentOf (f : State → State) : Component → Prop
  | .mem => ∀ s, (f s).mem = s.mem ∧ ∀ m, (f s).setMem m = f (s.setMem m)
  | .v => ∀ s, (f s).v = s.v ∧ ∀ v, (f s).setV v = f (s.setV v)
  | .i => ∀ s, (f s).i = s.i ∧ ∀ a, (f s).setI a = f (s.setI a)
  | .pc => ∀ s, (f s).pc = s.pc ∧ ∀ a, (f s).setPc a = f (s.setPc a)
  | .stack => ∀ s, (f s).stack = s.stack ∧ ∀ st, (f s).setStack st = f (s.setStack st)
  | .disp => ∀ s, (f s).disp = s.disp ∧ ∀ d, (f s).setDisp d = f (s.setDisp d)
  | .dt => ∀ s, (f s).dt = s.dt ∧ ∀ b, (f s).setDt b = f (s.setDt b)
  | .st => ∀ s, (f s).st = s.st ∧ ∀ b, (f s).setSt b = f (s.setSt b)
  | .keys => ∀ s, (f s).keys = s.keys ∧ ∀ k, (f s).setKeys k = f (s.setKeys k)
  | .run => ∀ s, (f s).run = s.run ∧ ∀ r, (f s).setRun r = f (s.setRun r)
  | .wait => ∀ s, (f s).wait = s.wait ∧ ∀ w, (f s).setWait w = f (s.setWait w)
  | .params => ∀ s, (f s).params = s.params ∧ ∀ p, { f s with params := p } = f { s with params := p }
  | .freeCount => ∀ s, (f s).freeCount = s.freeCount ∧ ∀ n, { f s with freeCount := n } = f { s with freeCount := n }

/-- The state `s` with one component replaced by that of `u`. -/
def Component.replaceFrom (u : State) : Component → State → State
  | .mem, s => s.setMem u.mem
  | .v, s => s.setV u.v
  | .i, s => s.setI u.i
  | .pc, s => s.setPc u.pc
  | .stack, s => s.setStack u.stack
  | .disp, s => s.setDisp u.disp
  | .dt, s => s.setDt u.dt
  | .st, s => s.setSt u.st
  | .keys, s => s.setKeys u.keys
  | .run, s => s.setRun u.run
  | .wait, s => s.setWait u.wait
  | .params, s => { s with params := u.params }
  | .freeCount, s => { s with freeCount := u.freeCount }

/-- Replacing one component is independent of every other: the two updates write different fields. -/
theorem Component.independentOf_replaceFrom {c d : Component} (h : c ≠ d) (u : State) :
    c.IndependentOf (d.replaceFrom u) := by
  cases c <;> cases d <;> simp at h <;> exact fun _ => ⟨rfl, fun _ => rfl⟩

theorem Component.replaceFrom_self (c : Component) (s : State) : c.replaceFrom s s = s := by
  cases c <;> rfl

/-- A component that a replacement does not alter was the same already. -/
theorem Component.same_of_replaceFrom_eq {c : Component} {s t : State} (h : c.replaceFrom s t = t) :
    Component.Same s t c := by
  rw [← h]
  cases c
  case mem => exact fun _ => rfl
  all_goals rfl

section operations
/-! The shared operations commute with a change that is independent of the components they use. -/

variable {f : State → State} (s : State)

theorem readV_of_independent (hv : Component.v.IndependentOf f) (x : RegIdx) : (f s).readV x = s.readV x :=
  State.readV_congr (hv s).1 x

theorem writeV_of_independent (hv : Component.v.IndependentOf f) (x : RegIdx) (b : Byte) :
    (f s).writeV x b = f (s.writeV x b) := by
  rw [State.writeV, (hv s).1, (hv s).2, State.writeV]

theorem writeResult_of_independent (hv : Component.v.IndependentOf f) (x : RegIdx) (r : Byte × Bool) :
    (f s).writeResult x r = f (s.writeResult x r) := by
  simp only [State.writeResult, State.writeFlag, writeV_of_independent _ hv]

theorem writeLogic_of_independent (hv : Component.v.IndependentOf f) (hp : Component.params.IndependentOf f)
    (x : RegIdx) (r : Byte) : (f s).writeLogic x r = f (s.writeLogic x r) := by
  simp only [State.writeLogic, (hp s).1]
  cases s.params.logicVf <;> simp only [State.writeFlag, writeV_of_independent _ hv]

theorem skipIf_of_independent (hpc : Component.pc.IndependentOf f) (c : Bool) : skipIf c (f s) = f (skipIf c s) := by
  cases c
  · rfl
  · simp only [skipIf, if_true, State.advance, (hpc s).1, (hpc s).2]

theorem incrementI_of_independent (hp : Component.params.IndependentOf f) (hi : Component.i.IndependentOf f)
    (x : RegIdx) : (f s).incrementI x = f (s.incrementI x) := by
  simp only [State.incrementI, (hp s).1, (hi s).1, (hi s).2]
  cases s.params.memIIncrement <;> rfl

theorem waitPc_of_independent (hp : Component.params.IndependentOf f) (hpc : Component.pc.IndependentOf f) :
    (f s).waitPc = f s.waitPc := by
  simp only [State.waitPc, (hp s).1, (hpc s).1, (hpc s).2]
  cases s.params.keywaitPc <;> rfl

theorem raise_of_independent (hr : Component.run.IndependentOf f) (e : CoreError) : raise e (f s) = f (raise e s) :=
  (hr s).2 _

theorem bumpFree_of_independent (hc : Component.freeCount.IndependentOf f) : (f s).bumpFree = f s.bumpFree := by
  rw [State.bumpFree, (hc s).1, (hc s).2, State.bumpFree]

/-- The end of an execute rule whose check `c` does not see the change `f`. -/
theorem complete_map_of_independent {α : Type} (hr : Component.run.IndependentOf f) (c : Except CoreError α)
    {g g' : α → State} (hg : ∀ a, g' a = f (g a)) : complete (f s) (c.map g') = mapNext f (complete s (c.map g)) := by
  cases c with
  | ok a => exact congrArg _ (hg a)
  | error e => exact congrArg _ (raise_of_independent s hr e)

theorem readKey_of_independent (hk : Component.keys.IndependentOf f) (hp : Component.params.IndependentOf f)
    (hc : Component.freeCount.IndependentOf f) (k : Byte) :
    readKey k (f s) = (readKey k s).map fun r => (r.1, f r.2) := by
  simp only [readKey, State.keyDown, (hk s).1, (hp s).1, (hc s).1, bumpFree_of_independent s hc]
  split_ifs
  · rfl
  · cases s.params.keyIndexOor <;> rfl

theorem skipIfKey_of_independent (hk : Component.keys.IndependentOf f) (hp : Component.params.IndependentOf f)
    (hc : Component.freeCount.IndependentOf f) (hpc : Component.pc.IndependentOf f) (down : Bool) (k : Byte) :
    skipIfKey down k (f s) = mapNext f (skipIfKey down k s) := by
  rw [skipIfKey, readKey_of_independent s hk hp hc, skipIfKey]
  cases readKey k s with
  | ok r => exact congrArg _ (skipIf_of_independent _ hpc _)
  | error r => rfl

theorem push_of_independent (hs : Component.stack.IndependentOf f) (hpc : Component.pc.IndependentOf f) (a : Word) :
    push a (f s) = (push a s).map f := by
  simp only [push, State.fetchAddr, (hs s).1, (hs s).2, (hpc s).1]
  split_ifs <;> rfl

theorem pop_of_independent (hs : Component.stack.IndependentOf f) (hpc : Component.pc.IndependentOf f) :
    pop (f s) = (pop s).map fun r => (r.1, f r.2) := by
  simp only [pop, State.fetchAddr, (hs s).1, (hs s).2, (hpc s).1]
  cases s.stack <;> rfl

end operations

/-- A change of the state that is independent of an instruction's footprint commutes with its execution. -/
theorem exec_of_independent {i : Instr} {f : State → State} (h : ∀ c ∈ i.footprint, c.IndependentOf f) (s : State) :
    exec i (f s) = mapNext f (exec i s) := by
  cases i <;> simp only [Instr.footprint, List.forall_mem_cons, List.not_mem_nil, false_imp_iff, implies_true,
    and_true] at h
  case sys nnn =>
    obtain ⟨hp, hpc, hr⟩ := h
    simp only [exec, execSys, State.fetchAddr, (hp s).1, (hpc s).1]
    cases s.params.sysMode
    · rfl
    · exact congrArg _ (raise_of_independent s hr _)
  case cls | jp | ldI =>
    simp only [exec, execCls, execJp, execLdI, (h s).2, mapNext]
  case ret =>
    obtain ⟨hs, hpc, hr⟩ := h
    simp only [exec, execRet, pop_of_independent s hs hpc]
    rcases pop_cases s with ⟨-, hp⟩ | ⟨a, rest, -, hp⟩ <;> rw [hp]
    · exact congrArg _ (raise_of_independent s hr _)
    · exact congrArg _ ((hpc _).2 a)
  case call nnn =>
    obtain ⟨hs, hpc, hr⟩ := h
    simp only [exec, execCall, (hpc s).1, push_of_independent s hs hpc]
    rcases push_cases s.pc s with ⟨-, hp⟩ | ⟨-, hp⟩ <;> rw [hp]
    · exact congrArg _ (raise_of_independent s hr _)
    · exact congrArg _ ((hpc _).2 _)
  case seImm | sneImm | seReg | sneReg =>
    obtain ⟨hv, hpc⟩ := h
    simp only [exec, execSeImm, execSneImm, execSeReg, execSneReg, readV_of_independent s hv,
      skipIf_of_independent s hpc, mapNext]
  case ldImm | addImm | ldReg =>
    simp only [exec, execLdImm, execAddImm, execLdReg, readV_of_independent s h, writeV_of_independent s h, mapNext]
  case orReg | andReg | xorReg =>
    obtain ⟨hv, hp⟩ := h
    simp only [exec, execOr, execAnd, execXor, readV_of_independent s hv, writeLogic_of_independent s hv hp, mapNext]
  case addReg | sub | subn | shr | shl =>
    simp only [exec, execAddReg, execSub, execSubn, execShr, execShl, readV_of_independent s h,
      writeResult_of_independent s h, mapNext]
  case addI | ldF =>
    obtain ⟨hv, hi⟩ := h
    simp only [exec, execAddI, execLdF, readV_of_independent s hv, (hi s).1, (hi s).2, mapNext]
  case jpV0 nnn =>
    obtain ⟨hv, hp, hpc⟩ := h
    simp only [exec, execJpV0, jumpTarget, readV_of_independent s hv, (hp s).1, (hpc s).2, mapNext]
  case rnd x nn =>
    obtain ⟨hv, hc⟩ := h
    simp only [exec, execRnd, rndWith, (hc s).1, writeV_of_independent s hv, bumpFree_of_independent _ hc, mapNext]
  case drw x y n =>
    obtain ⟨hv, hp, hm, hi, hd, hr⟩ := h
    simp only [exec, execDrw, drawnSprite, State.base, readV_of_independent s hv, (hp s).1, (hm s).1, (hi s).1, (hd s).1]
    exact complete_map_of_independent s hr _ fun _ => by
      simp only [(hd s).2, State.writeFlag, writeV_of_independent _ hv]
  case skp | sknp =>
    obtain ⟨hv, hp, hk, hc, hpc⟩ := h
    simp only [exec, execSkp, execSknp, readV_of_independent s hv, skipIfKey_of_independent s hk hp hc hpc]
  case ldVxDt x =>
    obtain ⟨hv, hd⟩ := h
    simp only [exec, execLdVxDt, (hd s).1, writeV_of_independent s hv, mapNext]
  case ldDtVx | ldStVx =>
    obtain ⟨hv, ht⟩ := h
    simp only [exec, execLdDtVx, execLdStVx, readV_of_independent s hv, (ht s).2, mapNext]
  case ldVxK x =>
    obtain ⟨hp, hw, hpc⟩ := h
    simp only [exec, execLdVxK, (hw s).2, waitPc_of_independent _ hp hpc, mapNext]
  case ldB x =>
    obtain ⟨hv, hm, hi, hr⟩ := h
    simp only [exec, execLdB, State.base, readV_of_independent s hv, (hm s).1, (hi s).1, (hm s).2]
    exact complete_map_of_independent s hr _ fun _ => rfl
  case ldMemVx x =>
    obtain ⟨hv, hp, hm, hi, hr⟩ := h
    simp only [exec, execLdMemVx, State.base, State.regsThrough, (hv s).1, (hm s).1, (hi s).1, (hm s).2]
    exact complete_map_of_independent s hr _ fun _ => incrementI_of_independent _ hp hi x
  case ldVxMem x =>
    obtain ⟨hv, hp, hm, hi, hr⟩ := h
    simp only [exec, execLdVxMem, State.base, (hv s).1, (hm s).1, (hi s).1, (hv s).2]
    exact complete_map_of_independent s hr _ fun _ => incrementI_of_independent _ hp hi x

/-- A state that such a change does not alter executes to one that it does not alter. -/
theorem exec_fixed_of_independent {i : Instr} {f : State → State} (h : ∀ c ∈ i.footprint, c.IndependentOf f)
    {s t : State} (hs : f s = s) (ht : exec i s = .next t) : f t = t := by
  have hft : exec i s = .next (f t) := by
    calc exec i s = exec i (f s) := by rw [hs]
      _ = mapNext f (exec i s) := exec_of_independent h s
      _ = .next (f t) := by rw [ht, mapNext]
  rw [ht] at hft
  exact (Host.Outcome.next.inj hft).symm

/-- Execution leaves every component outside the footprint alone. -/
theorem exec_onlyChanges_footprint {i : Instr} {s t : State} (h : exec i s = .next t) : OnlyChanges i.footprint s t :=
  fun c hc => Component.same_of_replaceFrom_eq <| exec_fixed_of_independent
    (fun _ hd => Component.independentOf_replaceFrom (ne_of_mem_of_not_mem hd hc) s) (c.replaceFrom_self s) h

/-- Replacing a component outside the footprint commutes with execution. -/
theorem exec_replaceFrom {i : Instr} {c : Component} (hc : c ∉ i.footprint) (u s : State) :
    exec i (c.replaceFrom u s) = mapNext (c.replaceFrom u) (exec i s) :=
  exec_of_independent (fun _ hd => Component.independentOf_replaceFrom (ne_of_mem_of_not_mem hd hc) u) s

end Sys2Proof.Machine
end

section
/-! The call stack and the display are seen by their own instructions only (10_state.md R29, R31). -/

namespace Sys2Proof.Machine

theorem stack_mem_footprint {i : Instr} : .stack ∈ i.footprint ↔ (∃ nnn, i = .call nnn) ∨ i = .ret := by
  cases i <;> simp [Instr.footprint]

theorem disp_mem_footprint {i : Instr} : .disp ∈ i.footprint ↔ i = .cls ∨ ∃ x y n, i = .drw x y n := by
  cases i <;> simp [Instr.footprint]

/-- DRW reads memory and leaves it alone. -/
theorem exec_drw_mem {x y : RegIdx} {n : Nibble} {s t : State} (h : exec (.drw x y n) s = .next t) :
    t.mem = s.mem := by
  simp only [exec, execDrw] at h
  rcases checkSprite_cases s.base n.toNat with hp | ⟨a, hp⟩ <;> (rw [hp] at h; cases h; rfl)

/-- Settles O55: the call stack is in the footprint of CALL and RET only, and memory is not in theirs. -/
theorem stackIsSeenOnlyByCallAndRet : Obligations.StackIsSeenOnlyByCallAndRet := by
  constructor
  · intro i s st hcall hret
    exact exec_replaceFrom (c := .stack) (by simp [stack_mem_footprint, hcall, hret]) (s.setStack st) s
  · rintro i s t hi h
    have hmem : .mem ∉ i.footprint := by rcases hi with ⟨nnn, rfl⟩ | rfl <;> simp [Instr.footprint]
    exact exec_onlyChanges_footprint h .mem hmem

/-- Settles O56: the display is in the footprint of CLS and DRW only; CLS overwrites it unread; neither writes memory. -/
theorem displayIsSeenOnlyByClsAndDrw : Obligations.DisplayIsSeenOnlyByClsAndDrw := by
  refine ⟨?_, fun s d => rfl, ?_, fun s y => ⟨rfl, rfl⟩⟩
  · intro i s d hcls hdrw
    exact exec_replaceFrom (c := .disp) (by simp [disp_mem_footprint, hcls, hdrw]) (s.setDisp d) s
  · rintro i s t (rfl | ⟨x, y, n, rfl⟩) h
    · exact exec_onlyChanges_footprint h .mem (by simp [Instr.footprint])
    · intro a; rw [exec_drw_mem h]

end Sys2Proof.Machine
end

section
/-! Memory writes: the checked byte write (20_memory.md R62), the host's bulk write (R63, R348), and what a write inside memory
leaves alone. -/

namespace Sys2Proof.Machine

/-- A component that a change is independent of is the same after the change. -/
theorem Component.IndependentOf.same {c : Component} {f : State → State} (h : c.IndependentOf f) (s : State) :
    Component.Same s (f s) c := by
  cases c
  case mem => exact fun a => by rw [(h s).1]
  all_goals exact (h s).1

theorem Component.onlyChanges_replaceFrom (c : Component) (u s : State) : OnlyChanges [c] s (c.replaceFrom u s) :=
  fun _ hd => (Component.independentOf_replaceFrom (List.ne_of_not_mem_cons hd) u).same s

theorem State.onlyChanges_setMem (s : State) (m : Memory) : OnlyChanges [.mem] s (s.setMem m) :=
  Component.onlyChanges_replaceFrom .mem (s.setMem m) s

/-- The bytes written at ascending addresses read back in order. -/
theorem Memory.getElem?_eq_read_writeList {m : Memory} (hm : m.wf = true) {a k : Nat} {vs : List Byte}
    (h : a + vs.length ≤ 4096) (hk : k < vs.length) : vs[k]? = some ((m.writeList a vs).read (a + k)) := by
  rw [Memory.read_writeList hm h, if_pos ⟨by omega, by omega⟩, Nat.add_sub_cancel_left, List.getD_eq_getElem _ _ hk,
    List.getElem?_eq_getElem hk]

/-- Bytes written inside memory leave every other byte alone. -/
theorem State.onlyBytes_writeList {s : State} (hm : s.mem.wf = true) {a : Nat} {vs : List Byte}
    (h : a + vs.length ≤ 4096) : OnlyBytes a vs.length s (s.setMem (s.mem.writeList a vs)) := fun b hb => by
  rw [State.setMem_mem, Memory.read_writeList hm h, if_neg (by omega)]

theorem memWrite_ok {s : State} {a : Word} (h : a.toNat < 4096) (b : Byte) :
    memWrite s a b = .ok (s.setMem (s.mem.write a.toNat b)) := if_pos h

theorem memWrite_error {s : State} {a : Word} (h : 4096 ≤ a.toNat) (b : Byte) :
    memWrite s a b = .error (.outOfBounds a) := if_neg (Nat.not_lt.mpr h)

theorem hostWrite_ok {bytes : List Byte} {offset : Nat} (h : offset + bytes.length ≤ 4096) (s : State) :
    hostWrite bytes offset s = .ok (s.setMem (s.mem.writeList offset bytes)) := if_neg (Nat.not_lt.mpr h)

theorem hostWrite_error {bytes : List Byte} {offset : Nat} (h : 4096 < offset + bytes.length) (s : State) :
    hostWrite bytes offset s = .error (.memoryOverflow offset bytes.length) := if_pos h

/-- The write transaction answers Ok with the state the host's write leaves. -/
theorem transact_write_of_ok {bytes : List Byte} {offset : Nat} {s u : State} (h : hostWrite bytes offset s = .ok u) :
    transact (.write bytes offset) s = .next (.written, u) := by
  simp only [transact, h]

/-- A failed write answers its error and leaves the state it began with (R348). -/
theorem transact_write_of_error {bytes : List Byte} {offset : Nat} {s : State} {e : CoreError}
    (h : hostWrite bytes offset s = .error e) : transact (.write bytes offset) s = .next (.rejected e, s) := by
  simp only [transact, h]

/-- Settles O51: the length check decides, and bytes that fit read back with every other byte as before. -/
theorem hostWriteIsAllOrNothing : Obligations.HostWriteIsAllOrNothing := by
  refine fun bytes offset s => ⟨fun hover => transact_write_of_error (hostWrite_error hover s), fun hfit hwf => ?_⟩
  exact ⟨_, transact_write_of_ok (hostWrite_ok hfit s), fun k hk => Memory.getElem?_eq_read_writeList hwf hfit hk,
    State.onlyBytes_writeList hwf hfit, s.onlyChanges_setMem _⟩

/-- Settles O52: the bound decides each access, a byte written is the bulk write of one byte, and an error ends in `raise`. -/
theorem singleByteAccess : Obligations.SingleByteAccess := by
  refine ⟨fun s a h => memRead_ok h, fun s a h => memRead_error h, ?write, fun s a b h => memWrite_error h b, ?fetch, ?rule⟩
  case write =>
    intro s a b ha hwf
    have hread : (s.mem.write a.toNat b).read a.toNat = b := by rw [Memory.read_write hwf ha, if_pos rfl]
    have hframe : OnlyBytes a.toNat 1 s (s.setMem (s.mem.write a.toNat b)) :=
      State.onlyBytes_writeList (vs := [b]) hwf ha
    exact ⟨_, memWrite_ok ha b, hread, hframe, s.onlyChanges_setMem _⟩
  case fetch => exact fun s e hs hf => ⟨raise e s, step_of_fetch_error hs hf, raise_run s e⟩
  case rule => exact fun s e => ⟨raise e s, complete_error s e, raise_run s e⟩

end Sys2Proof.Machine
end

section
/-! What a component keeps along a frame, and what the step and the host's transactions can do to each component
(40_pipeline.md R130, R139). -/

namespace Sys2Proof.Machine

theorem Component.Same.refl (s : State) (c : Component) : Component.Same s s c := by
  cases c
  case mem => exact fun _ => rfl
  all_goals rfl

theorem Component.Same.trans {s t u : State} {c : Component} (hst : Component.Same s t c)
    (htu : Component.Same t u c) : Component.Same s u c := by
  cases c
  case mem => exact fun a => (htu a).trans (hst a)
  all_goals exact Eq.trans htu hst

theorem OnlyChanges.refl (cs : List Component) (s : State) : OnlyChanges cs s s := fun c _ => .refl s c

theorem OnlyChanges.mono {cs ds : List Component} {s t : State} (hsub : cs ⊆ ds) (h : OnlyChanges cs s t) :
    OnlyChanges ds s t := fun c hc => h c fun hm => hc (hsub hm)

theorem OnlyChanges.trans {cs ds : List Component} {s t u : State} (hst : OnlyChanges cs s t)
    (htu : OnlyChanges ds t u) : OnlyChanges (cs ++ ds) s u := fun c hc => by
  rw [List.mem_append, not_or] at hc
  exact (hst c hc.1).trans (htu c hc.2)

theorem State.onlyChanges_advance (s : State) : OnlyChanges [.pc] s s.advance :=
  Component.onlyChanges_replaceFrom .pc s.advance s

theorem onlyChanges_raise (e : CoreError) (s : State) : OnlyChanges [.run] s (raise e s) :=
  Component.onlyChanges_replaceFrom .run (raise e s) s

/-- A step that changes a component other than `pc` and `run` executed an instruction that has it in its footprint. -/
theorem exec_of_step_not_same {s t : State} {c : Component} (h : step s = .next t) (hpc : c ≠ .pc)
    (hrun : c ≠ .run) (hne : ¬ Component.Same s t c) :
    ∃ w i, fetch s = .ok w ∧ decode w = .ok i ∧ c ∈ i.footprint ∧ exec i s.advance = .next t := by
  have hadv : Component.Same s s.advance c := s.onlyChanges_advance c (List.mem_singleton.not.mpr hpc)
  have hraise (e : CoreError) (u : State) : Component.Same u (raise e u) c :=
    onlyChanges_raise e u c (List.mem_singleton.not.mpr hrun)
  rcases step_cases h with ⟨-, -, rfl⟩ | ⟨-, -, -, rfl⟩ | ⟨-, e, -, rfl⟩ |
    ⟨-, w, r, -, -, rfl⟩ | ⟨-, w, i, hf, hd, hx⟩
  · exact absurd (.refl t c) hne
  · exact absurd (.refl t c) hne
  · exact absurd (hraise e s) hne
  · exact absurd (hadv.trans (hraise _ _)) hne
  · have hm : c ∈ i.footprint := by
      by_contra hm
      exact hne (hadv.trans (exec_onlyChanges_footprint hx c hm))
    exact ⟨w, i, hf, hd, hm, hx⟩

/-- A Halted core takes no step (R132). -/
theorem step_of_halted {s : State} {e : CoreError} (h : s.run = .halted e) : step s = .next s := by
  simp only [step, stepOnce, h]

theorem State.status_of_halted {s : State} {e : CoreError} (h : s.run = .halted e) : s.status = .error e := by
  simp only [State.status, h]

/-- The step transaction answers the status of the state the step leaves (R131). -/
theorem transact_step_of_next {s t : State} (h : step s = .next t) :
    transact .step s = .next (.status t.status, t) := by
  simp only [transact, h]

/-- The bulk write leaves everything but memory alone, whether it is done or rejected (R63, R348). -/
theorem transact_write_onlyChanges {bytes : List Byte} {offset : Nat} {s u : State} {a : Response}
    (h : transact (.write bytes offset) s = .next (a, u)) : OnlyChanges [.mem] s u := by
  by_cases hlen : offset + bytes.length ≤ 4096
  · rw [transact_write_of_ok (hostWrite_ok hlen s)] at h
    cases h; exact s.onlyChanges_setMem _
  · rw [transact_write_of_error (hostWrite_error (Nat.lt_of_not_le hlen) s)] at h
    cases h; exact .refl _ s

theorem State.onlyChanges_resumePc (s : State) : OnlyChanges [.pc] s s.resumePc := by
  unfold State.resumePc
  cases s.params.keywaitPc
  · exact .refl _ s
  · exact s.onlyChanges_advance

/-- A notification populates a register, ends the wait and may move `pc` (R289). -/
theorem notifyKey_onlyChanges (k : Nibble) (s : State) : OnlyChanges [.v, .wait, .pc] s (notifyKey k s) := by
  unfold notifyKey
  split
  next x _ _ =>
    have hwait := Component.onlyChanges_replaceFrom .wait ((s.writeV x (k.setWidth 8)).setWait none)
    exact ((s.onlyChanges_writeV x _).trans (hwait _)).trans (State.onlyChanges_resumePc _)
  next => exact .refl _ s

/-- Of the transactions other than a step, only the tick changes more than memory, the keys and what a notification writes
(R130). -/
theorem transact_onlyChanges {tr : Transaction} {s u : State} {a : Response} (h : transact tr s = .next (a, u))
    (hstep : tr ≠ .step) (htick : tr ≠ .timerTick) : OnlyChanges [.mem, .keys, .v, .wait, .pc] s u := by
  cases tr
  case step => exact absurd rfl hstep
  case timerTick => exact absurd rfl htick
  case write => exact (transact_write_onlyChanges h).mono (by decide)
  case setKeys k =>
    cases h; exact (Component.onlyChanges_replaceFrom .keys (setKeys k s) s).mono (by decide)
  case notifyKey k => cases h; exact (notifyKey_onlyChanges k s).mono (by decide)
  case readDisplay | readRow | readSound | readState => cases h; exact .refl _ s

end Sys2Proof.Machine
end

section
/-! The pipeline (40_pipeline.md): a Halted core re-reports (R132), the advance comes before the execute phase (R135), and
the timers are seen by their loads alone (R142). -/

namespace Sys2Proof.Machine

/-- Settles O12: the step stops at its first check, and the status is read from the state it leaves. -/
theorem haltedStepReportsTheError : Obligations.HaltedStepReportsTheError := fun s e h => by
  have hstep : step s = .next s := step_of_halted h
  refine ⟨hstep, ?_⟩
  rw [transact_step_of_next hstep, State.status_of_halted h]

/-- Settles O11: the fetch gives the big-endian word, and either way on the advance is made. -/
theorem stepExecutesTheDecodedInstruction : Obligations.StepExecutesTheDecodedInstruction := by
  intro s hs hpc w
  have hf : fetch s = .ok w := fetch_ok (by omega)
  exact ⟨fun i hd => step_of_decode hs hf hd, fun r hd => ⟨_, step_of_unknown hs hf hd, rfl⟩⟩

theorem dt_mem_footprint {i : Instr} : .dt ∈ i.footprint ↔ (∃ x, i = .ldDtVx x) ∨ ∃ x, i = .ldVxDt x := by
  cases i <;> simp [Instr.footprint]

theorem st_mem_footprint {i : Instr} : .st ∈ i.footprint ↔ ∃ x, i = .ldStVx x := by
  cases i <;> simp [Instr.footprint]

theorem exec_setDt {i : Instr} (h : .dt ∉ i.footprint) (s : State) (b : Byte) :
    exec i (s.setDt b) = mapNext (·.setDt b) (exec i s) := exec_replaceFrom h (s.setDt b) s

theorem exec_setSt {i : Instr} (h : .st ∉ i.footprint) (s : State) (b : Byte) :
    exec i (s.setSt b) = mapNext (·.setSt b) (exec i s) := exec_replaceFrom h (s.setSt b) s

theorem mapNext_mapNext (f g : State → State) (o : Host.Outcome State Fault Refusal) :
    mapNext f (mapNext g o) = mapNext (fun t => f (g t)) o := by
  cases o <;> rfl

/-- LD Vx, DT writes its register and nothing else, so it keeps `DT`, which it reads (R321). -/
theorem exec_ldVxDt_onlyChanges {x : RegIdx} {s t : State} (h : exec (.ldVxDt x) s = .next t) :
    OnlyChanges [.v] s t := by
  cases h; exact s.onlyChanges_writeV x s.dt

/-- A step that changes `DT` executed LD DT (R142): the footprint leaves LD Vx, DT besides, which only reads it. -/
theorem decode_ldDtVx_of_step_dt_ne {s t : State} (h : step s = .next t) (hne : t.dt ≠ s.dt) :
    ∃ w x, fetch s = .ok w ∧ decode w = .ok (.ldDtVx x) := by
  obtain ⟨w, i, hf, hd, hm, hx⟩ := exec_of_step_not_same (c := .dt) h (by decide) (by decide) hne
  rcases dt_mem_footprint.mp hm with ⟨x, rfl⟩ | ⟨x, rfl⟩
  · exact ⟨w, x, hf, hd⟩
  · exact absurd (exec_ldVxDt_onlyChanges hx .dt (by decide)) hne

/-- A step that changes `ST` executed LD ST (R142). -/
theorem decode_ldStVx_of_step_st_ne {s t : State} (h : step s = .next t) (hne : t.st ≠ s.st) :
    ∃ w x, fetch s = .ok w ∧ decode w = .ok (.ldStVx x) := by
  obtain ⟨w, i, hf, hd, hm, -⟩ := exec_of_step_not_same (c := .st) h (by decide) (by decide) hne
  obtain ⟨x, rfl⟩ := st_mem_footprint.mp hm
  exact ⟨w, x, hf, hd⟩

/-- Settles O57: a timer is in the footprint of its loads only, and no host transaction but the tick has it in its frame. -/
theorem timersAreTouchedOnlyByTheirLoads : Obligations.TimersAreTouchedOnlyByTheirLoads := by
  refine ⟨?other, ?readDt, ?step, ?host⟩
  case other =>
    intro i s a b hi
    have hdt : .dt ∉ i.footprint := by simp [dt_mem_footprint, fun x => (hi x).1, fun x => (hi x).2.2]
    have hst : .st ∉ i.footprint := by simp [st_mem_footprint, fun x => (hi x).2.1]
    rw [exec_setSt hst, exec_setDt hdt, mapNext_mapNext]
  case readDt =>
    intro x s t b h
    have hframe := exec_ldVxDt_onlyChanges h
    have hst : .st ∉ (Instr.ldVxDt x).footprint := by simp [st_mem_footprint]
    refine ⟨hframe .dt (by decide), hframe .st (by decide), ?_⟩
    rw [exec_setSt hst, h, mapNext]
  case step =>
    rintro s t h (hdt | hst)
    · obtain ⟨w, x, hf, hd⟩ := decode_ldDtVx_of_step_dt_ne h hdt
      exact ⟨w, x, hf, .inl hd⟩
    · obtain ⟨w, x, hf, hd⟩ := decode_ldStVx_of_step_st_ne h hst
      exact ⟨w, x, hf, .inr hd⟩
  case host =>
    intro tr s u a h hne
    by_contra htr
    rw [not_or] at htr
    have hframe := transact_onlyChanges h htr.1 htr.2
    exact hne.elim (· (hframe .dt (by decide))) (· (hframe .st (by decide)))

end Sys2Proof.Machine
end

section
/-! Control flow without the call stack: CLS (41_control_flow.md R164) and JP (R166). -/

namespace Sys2Proof.Machine

theorem exec_cls (s : State) : exec .cls s = .next (s.setDisp Display.clear) := rfl

theorem exec_jp (nnn : Addr12) (s : State) : exec (.jp nnn) s = .next (s.setPc (zext16 nnn)) := rfl

theorem decode_cls : decode 0x00E0#16 = .ok .cls := by decide

theorem decode_jp (nnn : Addr12) : decode (wordA 0x1#4 nnn) = .ok (.jp nnn) := by
  simp [decode]

/-- The cleared display is the one with every pixel off. -/
theorem Display.eq_clear {d : Display} (h : ∀ r c, d.pixel r c = false) : d = Display.clear :=
  Display.ext_pixel fun r c => by rw [h, Display.pixel_clear]

/-- At 0xFFF the first byte of the word is in memory and the second is not (R66). -/
theorem fetch_error_of_pc_eq {s : State} (h : s.pc.toNat = 0xFFF) : fetch s = .error (.outOfBounds 0x1000#16) := by
  rw [fetch_error h.ge, if_neg (by omega)]

/-- Settles O21: the display is CLS's whole footprint, a display is known by its pixels, and the two bytes at 0x200 are
fetched as 00E0. -/
theorem clsClearsTheDisplay : Obligations.ClsClearsTheDisplay := by
  refine ⟨decode_cls, fun s => ⟨?exec, ?step⟩⟩
  case exec =>
    refine ⟨_, exec_cls s, Display.pixel_clear, exec_onlyChanges_footprint (exec_cls s), fun hclear => ?_⟩
    rw [← Display.eq_clear hclear, State.setDisp_self]
  case step =>
    intro hs hpc hhi hlo
    have hpcNat : s.pc.toNat = 0x200 := by rw [hpc]; rfl
    have hfetch : fetch s = .ok 0x00E0#16 := by rw [fetch_ok (by omega), hpcNat, hhi, hlo]; rfl
    have hstep : step s = .next (s.advance.setDisp Display.clear) := step_of_decode hs hfetch decode_cls
    refine ⟨_, hstep, ?_, Display.pixel_clear⟩
    rw [State.setDisp_pc, State.advance_pc, hpc]; rfl

/-- Settles O22: `pc` is JP's whole footprint, 0xFFF is the only 12-bit address from which no word can be fetched, and a jump
to the fetch address undoes the advance. -/
theorem jpSetsPc : Obligations.JpSetsPc := by
  refine fun nnn => ⟨decode_jp nnn, fun s => ⟨?exec, ?selfJump⟩⟩
  case exec =>
    have hpc : (s.setPc (zext16 nnn)).pc.toNat = nnn.toNat := zext16_addr_toNat nnn
    refine ⟨_, exec_jp nnn s, hpc, exec_onlyChanges_footprint (exec_jp nnn s), fun htop => ?_, fun hne => ?_⟩
    · exact fetch_error_of_pc_eq (by rw [hpc, htop]; rfl)
    · have hlt : nnn.toNat < 0xFFF := by bv_omega
      exact ⟨_, fetch_ok (hpc.trans_lt hlt)⟩
  case selfJump =>
    intro hs hpc hfetch
    have htarget : zext16 nnn = s.pc := BitVec.eq_of_toNat_eq ((zext16_addr_toNat nnn).trans hpc.symm)
    calc step s = exec (.jp nnn) s.advance := step_of_decode hs hfetch (decode_jp nnn)
      _ = .next (s.advance.setPc s.pc) := by rw [exec_jp, htarget]
      _ = .next s := rfl

end Sys2Proof.Machine
end

section
/-! The sprite engine's collision flag (44_draw_input.md R281, R284). The flag gathers the collisions of single bits,
each with the pixel as it stood at that bit; it speaks of the display before and after the draw because a sprite of at
most 32 rows of 8 bits meets no cell twice. -/

namespace Sys2Proof.Machine

/-- Up to 32 consecutive sprite rows fall on different display rows. -/
theorem spriteRow_injOn (y : Byte) {r r' : Nat} (hr : r < 32) (hr' : r' < 32) (h : spriteRow y r = spriteRow y r') :
    r = r' := by
  have hmod : (y.toNat + r) % 32 = (y.toNat + r') % 32 := congrArg Fin.val h
  omega

/-- Up to 64 consecutive bit offsets fall on different display columns. -/
theorem spriteCol_injOn (x : Byte) {c c' : Nat} (hc : c < 64) (hc' : c' < 64) (h : spriteCol x c = spriteCol x c') :
    c = c' := by
  have hmod : (x.toNat + c) % 64 = (x.toNat + c') % 64 := congrArg Fin.val h
  omega

section engine
variable {edge : DrawEdge} {x y : Byte} {d : Display}

/-- A bit leaves every cell but its own alone. -/
theorem drawBit_pixel_of_ne {r c : Nat} {bit : Bool} {acc : Display × Bool} {r' : Fin 32} {c' : Fin 64}
    (h : ¬ (r' = spriteRow y r ∧ c' = spriteCol x c)) :
    (drawBit edge x y r c bit acc).1.pixel r' c' = acc.1.pixel r' c' := by
  rw [drawBit_pixel, decide_eq_false h, Bool.and_false, Bool.xor_false]

/-- A sprite row leaves every other display row alone. -/
theorem drawBits_pixel_of_row_ne {r : Nat} {row : Byte} {acc : Display × Bool} {r' : Fin 32}
    (h : r' ≠ spriteRow y r) (c' : Fin 64) (n : Nat) :
    (drawBits edge x y r row n acc).1.pixel r' c' = acc.1.pixel r' c' := by
  induction n with
  | zero => rfl
  | succ n ih => rw [drawBits, drawBit_pixel_of_ne fun hcell => h hcell.1, ih]

/-- The first `n` bits of a sprite row leave the column of every later bit alone. -/
theorem drawBits_pixel_of_le {r : Nat} {row : Byte} {acc : Display × Bool} {r' : Fin 32} {n c : Nat}
    (hn : n ≤ c) (hc : c < 64) :
    (drawBits edge x y r row n acc).1.pixel r' (spriteCol x c) = acc.1.pixel r' (spriteCol x c) := by
  induction n with
  | zero => rfl
  | succ n ih =>
    have hcol : spriteCol x c ≠ spriteCol x n := fun h => by
      have := spriteCol_injOn x hc (by omega) h
      omega
    rw [drawBits, drawBit_pixel_of_ne fun hcell => hcol hcell.2, ih (by omega)]

/-- The flag of a draw under way is set exactly when some pixel lit on `d`, the display it began with, is now off. -/
def CollisionSince (d : Display) (acc : Display × Bool) : Prop :=
  acc.2 = true ↔ ∃ r c, d.pixel r c = true ∧ acc.1.pixel r c = false

theorem CollisionSince.start (d : Display) : CollisionSince d (d, false) := by
  simp [CollisionSince]

/-- Inverting a cell that is still as it was on `d`: a lit one is a collision and is off from now on, and an unlit one
is neither. -/
theorem CollisionSince.toggle {acc : Display × Bool} {r : Fin 32} {c : Fin 64} (h : CollisionSince d acc)
    (hcell : acc.1.pixel r c = d.pixel r c) : CollisionSince d (acc.1.toggle r c, acc.2 || acc.1.pixel r c) := by
  cases hd : d.pixel r c
  case true =>
    have hoff : (acc.1.toggle r c).pixel r c = false := by simp [Display.pixel_toggle, hcell, hd]
    exact iff_of_true (by simp [hcell, hd]) ⟨r, c, hd, hoff⟩
  case false =>
    have hsame (r' : Fin 32) (c' : Fin 64) (hlit : d.pixel r' c' = true) :
        (acc.1.toggle r c).pixel r' c' = acc.1.pixel r' c' := by
      rw [Display.pixel_toggle, if_neg]
      rintro ⟨rfl, rfl⟩
      simp [hd] at hlit
    rw [hcell, hd, Bool.or_false]
    exact h.trans (exists₂_congr fun r' c' => and_congr_right fun hlit => by rw [hsame r' c' hlit])

/-- A bit drawn on a cell that is still as it was on `d`. -/
theorem CollisionSince.drawBit {acc : Display × Bool} {r c : Nat} (h : CollisionSince d acc)
    (hcell : acc.1.pixel (spriteRow y r) (spriteCol x c) = d.pixel (spriteRow y r) (spriteCol x c)) (bit : Bool) :
    CollisionSince d (drawBit edge x y r c bit acc) := by
  unfold Machine.drawBit
  split_ifs
  · exact h
  · exact h.toggle hcell
  · exact h

/-- A sprite row drawn on a display row that is still as it was on `d`: each bit finds its cell so. -/
theorem CollisionSince.drawBits {acc : Display × Bool} {r n : Nat} (h : CollisionSince d acc)
    (hrow : ∀ c', acc.1.pixel (spriteRow y r) c' = d.pixel (spriteRow y r) c') (hn : n ≤ 64) (row : Byte) :
    CollisionSince d (drawBits edge x y r row n acc) := by
  induction n with
  | zero => exact h
  | succ n ih =>
    refine (ih (by omega)).drawBit ?_ _
    rw [drawBits_pixel_of_le le_rfl hn, hrow]

/-- Sprite rows drawn from row `r` on, where the display rows still to come are as they were on `d`. -/
theorem CollisionSince.drawRows {rows : List Byte} {acc : Display × Bool} {r : Nat} (h : CollisionSince d acc)
    (hlen : r + rows.length ≤ 32)
    (hrest : ∀ k, r ≤ k → k < 32 → ∀ c', acc.1.pixel (spriteRow y k) c' = d.pixel (spriteRow y k) c') :
    CollisionSince d (drawRows edge x y r rows acc) := by
  induction rows generalizing r acc with
  | nil => exact h
  | cons row rows ih =>
    rw [List.length_cons] at hlen
    refine ih (h.drawBits (hrest r le_rfl (by omega)) (by omega) row) (by omega) fun k hk hk32 c' => ?_
    have hne : spriteRow y k ≠ spriteRow y r := fun heq => by
      have := spriteRow_injOn y hk32 (by omega) heq
      omega
    rw [drawBits_pixel_of_row_ne hne, hrest k (by omega) hk32]

/-- The flag of a whole sprite of at most 32 rows (R284). -/
theorem drawSprite_collision {rows : List Byte} (hlen : rows.length ≤ 32) :
    CollisionSince d (drawSprite edge x y rows d) :=
  (CollisionSince.start d).drawRows (by omega) fun _ _ _ _ => rfl

end engine

/-- DRW's range check passes for an empty sprite and for one that fits in memory (R285, D16). -/
theorem checkSprite_ok {base n : Nat} (h : n = 0 ∨ base + n ≤ 4096) : checkSprite base n = .ok () := by
  unfold checkSprite
  split_ifs with hn
  · rfl
  · exact checkRange_ok (h.resolve_left hn)

/-- DRW on a sprite that passes the check: the drawn display, and then the flag in VF (R285). -/
theorem exec_drw_of_fits {s : State} {n : Nibble} (h : n.toNat = 0 ∨ s.base + n.toNat ≤ 4096) (x y : RegIdx) :
    exec (.drw x y n) s = .next ((s.setDisp (drawnSprite x y n s).1).writeFlag (drawnSprite x y n s).2) := by
  simp only [exec, execDrw, checkSprite_ok h, Except.map, complete_ok]

@[simp] theorem State.readV_writeFlag_vf (s : State) (c : Bool) : (s.writeFlag c).readV vf = flagByte c :=
  s.readV_writeV_self vf (flagByte c)

/-- Settles O43: the flag follows the pixels through the whole draw, and DRW's last write is that flag to VF. -/
theorem collisionIsALitPixelTurnedOff : Obligations.CollisionIsALitPixelTurnedOff := by
  constructor
  · intro edge x y rows d hlen
    exact drawSprite_collision (by omega)
  · intro s x y n hfit
    exact ⟨_, exec_drw_of_fits (.inr hfit) x y, State.readV_writeFlag_vf _ _⟩

end Sys2Proof.Machine
end

section
/-! The tone signal (45_timers.md R324): it is a function of `ST`, so what changes it changes `ST`. -/

namespace Sys2Proof.Machine

theorem toneOn_eq_true_iff (s : State) : toneOn s = true ↔ 0 < s.st.toNat := by
  rw [toneOn, decide_eq_true_iff, BitVec.lt_def, BitVec.toNat_ofNat, Nat.zero_mod]

theorem toneOn_congr {s t : State} (h : t.st = s.st) : toneOn t = toneOn s := by
  rw [toneOn, toneOn, h]

theorem transact_readSound (s : State) : transact .readSound s = .next (.sound s.st, s) := rfl

/-- The step transaction leaves the state its step leaves, and answers that state's status (R131). -/
theorem transact_step_eq_next_iff {s u : State} {a : Response} :
    transact .step s = .next (a, u) ↔ step s = .next u ∧ a = .status u.status := by
  constructor
  · intro h
    cases hstep : step s with
    | next t =>
      rw [transact_step_of_next hstep] at h
      cases h; exact ⟨rfl, rfl⟩
    | fault f => simp only [transact, hstep, reduceCtorEq] at h
    | refused r => simp only [transact, hstep, reduceCtorEq] at h
  · rintro ⟨hstep, rfl⟩
    exact transact_step_of_next hstep

/-- Settles O58: a change of the tone is a change of `ST`, which only a tick makes or a step that executed LD ST (R142). -/
theorem toneSignalIsTheSoundTimer : Obligations.ToneSignalIsTheSoundTimer := by
  refine ⟨fun s => ⟨toneOn_eq_true_iff s, transact_readSound s⟩, fun tr s u a h htone => ?_⟩
  have hst : u.st ≠ s.st := fun heq => htone (toneOn_congr heq)
  obtain ⟨-, -, -, hhost⟩ := timersAreTouchedOnlyByTheirLoads
  rcases hhost tr s u a h (.inr hst) with rfl | rfl
  · obtain ⟨hstep, -⟩ := transact_step_eq_next_iff.mp h
    exact .inr ⟨rfl, decode_ldStVx_of_step_st_ne hstep hst⟩
  · exact .inl rfl

end Sys2Proof.Machine
end

section
/-! Frames of the shared operations: what each leaves alone, said once, and what an instruction may change. -/

namespace Sys2Proof.Machine

theorem State.onlyChanges_setV (s : State) (v : Vector Byte 16) : OnlyChanges [.v] s (s.setV v) :=
  Component.onlyChanges_replaceFrom .v (s.setV v) s

theorem State.onlyChanges_setI (s : State) (a : Word) : OnlyChanges [.i] s (s.setI a) :=
  Component.onlyChanges_replaceFrom .i (s.setI a) s

theorem State.onlyChanges_setPc (s : State) (a : Word) : OnlyChanges [.pc] s (s.setPc a) :=
  Component.onlyChanges_replaceFrom .pc (s.setPc a) s

theorem State.onlyChanges_setStack (s : State) (st : List Word) : OnlyChanges [.stack] s (s.setStack st) :=
  Component.onlyChanges_replaceFrom .stack (s.setStack st) s

theorem State.onlyChanges_setDisp (s : State) (d : Display) : OnlyChanges [.disp] s (s.setDisp d) :=
  Component.onlyChanges_replaceFrom .disp (s.setDisp d) s

theorem State.onlyChanges_setDt (s : State) (b : Byte) : OnlyChanges [.dt] s (s.setDt b) :=
  Component.onlyChanges_replaceFrom .dt (s.setDt b) s

theorem State.onlyChanges_setSt (s : State) (b : Byte) : OnlyChanges [.st] s (s.setSt b) :=
  Component.onlyChanges_replaceFrom .st (s.setSt b) s

theorem State.onlyChanges_setKeys (s : State) (k : Vector Bool 16) : OnlyChanges [.keys] s (s.setKeys k) :=
  Component.onlyChanges_replaceFrom .keys (s.setKeys k) s

theorem State.onlyChanges_setRun (s : State) (r : Run) : OnlyChanges [.run] s (s.setRun r) :=
  Component.onlyChanges_replaceFrom .run (s.setRun r) s

theorem State.onlyChanges_setWait (s : State) (w : Option RegIdx) : OnlyChanges [.wait] s (s.setWait w) :=
  Component.onlyChanges_replaceFrom .wait (s.setWait w) s

theorem State.onlyChanges_bumpFree (s : State) : OnlyChanges [.freeCount] s s.bumpFree :=
  Component.onlyChanges_replaceFrom .freeCount s.bumpFree s

/-- Two changes within one frame stay in it. -/
theorem OnlyChanges.trans_within {cs : List Component} {s t u : State} (hst : OnlyChanges cs s t)
    (htu : OnlyChanges cs t u) : OnlyChanges cs s u := fun c hc => (hst c hc).trans (htu c hc)

theorem State.onlyChanges_writeFlag (s : State) (c : Bool) : OnlyChanges [.v] s (s.writeFlag c) :=
  s.onlyChanges_writeV vf (flagByte c)

theorem State.onlyChanges_writeResult (s : State) (x : RegIdx) (r : Byte × Bool) :
    OnlyChanges [.v] s (s.writeResult x r) :=
  (s.onlyChanges_writeV x r.1).trans_within (State.onlyChanges_writeFlag _ r.2)

theorem State.onlyChanges_writeLogic (s : State) (x : RegIdx) (r : Byte) : OnlyChanges [.v] s (s.writeLogic x r) := by
  unfold State.writeLogic
  cases s.params.logicVf
  · exact s.onlyChanges_writeV x r
  · exact (s.onlyChanges_writeV x r).trans_within (State.onlyChanges_writeFlag _ false)

theorem State.onlyChanges_incrementI (s : State) (x : RegIdx) : OnlyChanges [.i] s (s.incrementI x) := by
  unfold State.incrementI
  cases s.params.memIIncrement
  · exact .refl _ s
  · exact s.onlyChanges_setI _

theorem State.onlyChanges_waitPc (s : State) : OnlyChanges [.pc] s s.waitPc := by
  unfold State.waitPc
  cases s.params.keywaitPc
  · exact .refl _ s
  · exact s.onlyChanges_setPc _

theorem onlyChanges_skipIf (c : Bool) (s : State) : OnlyChanges [.pc] s (skipIf c s) := by
  cases c
  · exact .refl _ s
  · exact s.onlyChanges_advance

theorem rndWith_onlyChanges (r : Byte) (x : RegIdx) (nn : Byte) (s : State) :
    OnlyChanges [.v, .freeCount] s (rndWith r x nn s) :=
  (s.onlyChanges_writeV x (r &&& nn)).trans (State.onlyChanges_bumpFree _)

/-- Everything SKP and SKNP can answer: a skip or none, after a free value was taken or not, or the model's refusal, which
names an index above 0xF (R286). -/
theorem skipIfKey_cases (down : Bool) (k : Byte) (s : State) :
    (∃ c, skipIfKey down k s = .next (skipIf c s)) ∨ (∃ c, skipIfKey down k s = .next (skipIf c s.bumpFree)) ∨
      (s.params.keyIndexOor = .refuse ∧ 0xF < k.toNat ∧ skipIfKey down k s = .refused (.keyIndexOutOfRange k)) := by
  unfold skipIfKey
  rcases readKey_cases k s with ⟨b, hk⟩ | ⟨b, hk⟩ | ⟨hp, hk⟩
  · exact .inl ⟨_, by rw [hk]⟩
  · exact .inr (.inl ⟨_, by rw [hk]⟩)
  · have hlarge : 0xF < k.toNat := by
      by_contra hle
      have hmem : k ≤ 0x0F#8 := by bv_omega
      rw [readKey, if_pos hmem] at hk; cases hk
    exact .inr (.inr ⟨hp, hlarge, by rw [hk]⟩)

end Sys2Proof.Machine

namespace Sys2Proof

/-- The components an instruction writes when it completes without an error. -/
def Instr.writes : Instr → List Machine.Component
  | .sys _ => []
  | .cls => [.disp]
  | .jp _ | .jpV0 _ => [.pc]
  | .call _ | .ret => [.stack, .pc]
  | .seImm _ _ | .sneImm _ _ | .seReg _ _ | .sneReg _ _ => [.pc]
  | .ldImm _ _ | .addImm _ _ | .ldReg _ _ => [.v]
  | .orReg _ _ | .andReg _ _ | .xorReg _ _ => [.v]
  | .addReg _ _ | .sub _ _ | .subn _ _ | .shr _ _ | .shl _ _ => [.v]
  | .rnd _ _ => [.v, .freeCount]
  | .ldI _ | .addI _ | .ldF _ => [.i]
  | .drw _ _ _ => [.disp, .v]
  | .skp _ | .sknp _ => [.freeCount, .pc]
  | .ldVxDt _ => [.v]
  | .ldDtVx _ => [.dt]
  | .ldStVx _ => [.st]
  | .ldVxK _ => [.wait, .pc]
  | .ldB _ => [.mem]
  | .ldMemVx _ => [.mem, .i]
  | .ldVxMem _ => [.v, .i]

end Sys2Proof

namespace Sys2Proof.Machine

/-- The outcome is one that the instruction may have in the state: completed within its writes, halted precisely with an error
of its own, or refused for a key index above 0xF where the parameter asks for it. -/
def AllowedOutcome (i : Instr) (s : State) (o : Host.Outcome State Fault Refusal) : Prop :=
  (∃ t, o = .next t ∧ OnlyChanges i.writes s t) ∨
    (∃ e, o = .next (raise e s) ∧ ∀ offset len, e ≠ .memoryOverflow offset len) ∨
    (s.params.keyIndexOor = .refuse ∧ ∃ k, 0xF < k.toNat ∧ o = .refused (.keyIndexOutOfRange k))

theorem AllowedOutcome.of_next {i : Instr} {s t : State} (h : OnlyChanges i.writes s t) :
    AllowedOutcome i s (.next t) := .inl ⟨t, rfl, h⟩

theorem AllowedOutcome.of_raise {i : Instr} {s : State} {e : CoreError} (he : ∀ offset len, e ≠ .memoryOverflow offset len) :
    AllowedOutcome i s (.next (raise e s)) := .inr (.inl ⟨e, rfl, he⟩)

/-- An execute rule that checks a range and then changes the state within its writes. -/
theorem AllowedOutcome.of_check {i : Instr} {s t : State} {c : Except CoreError Unit}
    (hc : c = .ok () ∨ ∃ a, c = .error (.outOfBounds a)) (h : OnlyChanges i.writes s t) :
    AllowedOutcome i s (complete s (c.map fun _ => t)) := by
  rcases hc with rfl | ⟨a, rfl⟩
  · exact .of_next h
  · exact .of_raise (by simp)

theorem AllowedOutcome.of_skipIfKey {i : Instr} (hi : i.writes = [.freeCount, .pc]) (down : Bool) (k : Byte) (s : State) :
    AllowedOutcome i s (skipIfKey down k s) := by
  rcases skipIfKey_cases down k s with ⟨c, hk⟩ | ⟨c, hk⟩ | ⟨hp, hlarge, hk⟩ <;> rw [hk]
  · refine .of_next ?_
    rw [hi]; exact (onlyChanges_skipIf c s).mono (by decide)
  · refine .of_next ?_
    rw [hi]; exact s.onlyChanges_bumpFree.trans (onlyChanges_skipIf c _)
  · exact .inr (.inr ⟨hp, k, hlarge, rfl⟩)

/-- Everything an execute phase can answer (R137, R286, R342). -/
theorem exec_allowedOutcome (i : Instr) (s : State) : AllowedOutcome i s (exec i s) := by
  cases i
  case sys nnn =>
    simp only [exec, execSys]
    cases s.params.sysMode
    · exact .of_next (.refl _ s)
    · exact .of_raise (by simp)
  case ret =>
    simp only [exec, execRet]
    rcases pop_cases s with ⟨-, hp⟩ | ⟨a, rest, -, hp⟩ <;> rw [hp]
    · exact .of_raise (by simp)
    · exact .of_next ((s.onlyChanges_setStack rest).trans (State.onlyChanges_setPc _ a))
  case call nnn =>
    simp only [exec, execCall]
    rcases push_cases s.pc s with ⟨-, hp⟩ | ⟨-, hp⟩ <;> rw [hp]
    · exact .of_raise (by simp)
    · exact .of_next ((s.onlyChanges_setStack _).trans (State.onlyChanges_setPc _ _))
  case seImm | sneImm | seReg | sneReg => exact .of_next (onlyChanges_skipIf _ s)
  case ldImm | addImm | ldReg | ldVxDt => exact .of_next (s.onlyChanges_writeV _ _)
  case orReg | andReg | xorReg => exact .of_next (s.onlyChanges_writeLogic _ _)
  case addReg | sub | subn | shr | shl => exact .of_next (s.onlyChanges_writeResult _ _)
  case rnd x nn => exact .of_next (rndWith_onlyChanges _ x nn s)
  case cls => exact .of_next (s.onlyChanges_setDisp _)
  case jp | jpV0 => exact .of_next (s.onlyChanges_setPc _)
  case ldI | addI | ldF => exact .of_next (s.onlyChanges_setI _)
  case ldDtVx => exact .of_next (s.onlyChanges_setDt _)
  case ldStVx => exact .of_next (s.onlyChanges_setSt _)
  case ldVxK x => exact .of_next ((s.onlyChanges_setWait (some x)).trans (State.onlyChanges_waitPc _))
  case skp | sknp => exact .of_skipIfKey rfl _ _ s
  case drw x y n =>
    exact .of_check (checkSprite_cases _ _)
      ((s.onlyChanges_setDisp _).trans (State.onlyChanges_writeFlag _ _))
  case ldB x => exact .of_check (checkRange_cases _ _) (s.onlyChanges_setMem _)
  case ldMemVx x =>
    exact .of_check (checkRange_cases _ _)
      ((s.onlyChanges_setMem _).trans (State.onlyChanges_incrementI _ x))
  case ldVxMem x =>
    exact .of_check (checkRange_cases _ _)
      ((s.onlyChanges_setV _).trans (State.onlyChanges_incrementI _ x))

/-- An execute phase that answers a next state completed within its writes, or halted the state it began with. -/
theorem exec_next_cases {i : Instr} {s t : State} (h : exec i s = .next t) :
    OnlyChanges i.writes s t ∨ ∃ e, t = raise e s := by
  rcases exec_allowedOutcome i s with ⟨u, hu, hw⟩ | ⟨e, he, -⟩ | ⟨-, k, -, hr⟩
  · rw [h] at hu; cases hu; exact .inl hw
  · rw [h] at he; cases he; exact .inr ⟨e, rfl⟩
  · rw [h] at hr; cases hr

/-- A component other than `run` that an instruction does not write is the same after it. -/
theorem exec_same_of_not_mem_writes {i : Instr} {s t : State} {c : Component} (h : exec i s = .next t)
    (hc : c ∉ i.writes) (hrun : c ≠ .run) : Component.Same s t c := by
  rcases exec_next_cases h with hw | ⟨e, rfl⟩
  · exact hw c hc
  · exact onlyChanges_raise e s c (List.mem_singleton.not.mpr hrun)

end Sys2Proof.Machine
end

section
/-! The machine invariant `State.Inv`: each operation keeps it under its own bound, so every execute phase, every step and every
transaction keeps it, and a run reaches no other state (10_state.md R25-R30, R36; 60_exceptions.md R348). -/

namespace Sys2Proof.Machine

/-- Masking to 12 bits is reduction modulo 4096. -/
theorem and_mask12_toNat (a : Word) : (a &&& 0x0FFF#16).toNat = a.toNat % 4096 :=
  (BitVec.toNat_and a _).trans (Nat.and_two_pow_sub_one_eq_mod a.toNat 12)

/-- Masking to the low 4 bits is reduction modulo 16. -/
theorem and_mask4_toNat (b : Byte) : (b &&& 0x0F#8).toNat = b.toNat % 16 :=
  (BitVec.toNat_and b _).trans (Nat.and_two_pow_sub_one_eq_mod b.toNat 4)

/-- The address of a glyph (R253). -/
theorem glyphAddr_toNat (b : Byte) : (glyphAddr b).toNat = 0x050 + 5 * (b.toNat % 16) := by
  have hnibble := and_mask4_toNat b
  simp only [glyphAddr, fontBase, BitVec.toNat_add, BitVec.toNat_mul, zext16_byte_toNat, hnibble, BitVec.toNat_ofNat]
  omega

/-- The target of JP V0 as a number, which no 16-bit sum wraps (R172). -/
theorem jumpTarget_toNat (nnn : Addr12) (s : State) :
    (jumpTarget nnn s).toNat = (if s.params.jpV0Mask = .none then nnn.toNat + (s.readV 0x0#4).toNat
      else (nnn.toNat + (s.readV 0x0#4).toNat) % 4096) := by
  have hsum : (zext16 nnn + zext16 (s.readV 0x0#4)).toNat = nnn.toNat + (s.readV 0x0#4).toNat := by
    have := (s.readV 0x0#4).isLt
    rw [BitVec.toNat_add, zext16_addr_toNat, zext16_byte_toNat]
    omega
  unfold jumpTarget
  cases s.params.jpV0Mask
  · rw [if_pos rfl]; exact hsum
  · rw [if_neg (by decide), ← hsum]; exact and_mask12_toNat _

namespace State.Inv
variable {s t : State}

/-- The invariant speaks of memory, `I`, `pc`, the stack, `run` and `wait` alone. -/
theorem of_frame (h : s.Inv) (hmem : t.mem = s.mem)
    (hframe : OnlyChanges [.v, .disp, .dt, .st, .keys, .params, .freeCount] s t) : t.Inv := by
  have hi : t.i = s.i := hframe .i (by decide)
  have hpc : t.pc = s.pc := hframe .pc (by decide)
  have hstack : t.stack = s.stack := hframe .stack (by decide)
  have hrun : t.run = s.run := hframe .run (by decide)
  have hwait : t.wait = s.wait := hframe .wait (by decide)
  constructor
  · rw [hmem]; exact h.mem_wf
  · rw [hi]; exact h.index_le
  · rw [hpc]; exact h.pc_le
  · rw [hstack]; exact h.depth_le
  · rw [hstack]; exact h.stack_le
  · rw [hwait, hrun]; exact h.wait_running
  · rw [hwait, hpc]; exact h.wait_pc_le
  · rw [hrun]; exact h.halt_kind

theorem writeV (h : s.Inv) (x : RegIdx) (b : Byte) : (s.writeV x b).Inv :=
  h.of_frame rfl ((s.onlyChanges_writeV x b).mono (by decide))

theorem writeResult (h : s.Inv) (x : RegIdx) (r : Byte × Bool) : (s.writeResult x r).Inv :=
  (h.writeV x r.1).writeV vf (flagByte r.2)

theorem writeLogic (h : s.Inv) (x : RegIdx) (r : Byte) : (s.writeLogic x r).Inv := by
  unfold State.writeLogic
  cases s.params.logicVf
  · exact h.writeV x r
  · exact (h.writeV x r).writeV vf (flagByte false)

theorem setV (h : s.Inv) (v : Vector Byte 16) : (s.setV v).Inv :=
  h.of_frame rfl ((s.onlyChanges_setV v).mono (by decide))

theorem setDisp (h : s.Inv) (d : Display) : (s.setDisp d).Inv :=
  h.of_frame rfl ((s.onlyChanges_setDisp d).mono (by decide))

theorem setDt (h : s.Inv) (b : Byte) : (s.setDt b).Inv :=
  h.of_frame rfl ((s.onlyChanges_setDt b).mono (by decide))

theorem setSt (h : s.Inv) (b : Byte) : (s.setSt b).Inv :=
  h.of_frame rfl ((s.onlyChanges_setSt b).mono (by decide))

theorem setKeys (h : s.Inv) (k : Vector Bool 16) : (s.setKeys k).Inv :=
  h.of_frame rfl ((s.onlyChanges_setKeys k).mono (by decide))

theorem bumpFree (h : s.Inv) : s.bumpFree.Inv :=
  h.of_frame rfl (s.onlyChanges_bumpFree.mono (by decide))

theorem setMem (h : s.Inv) {m : Memory} (hm : m.wf = true) : (s.setMem m).Inv := { h with mem_wf := hm }

theorem setI (h : s.Inv) {a : Word} (ha : a.toNat ≤ 0xFFF) : (s.setI a).Inv := { h with index_le := ha }

theorem setStack (h : s.Inv) {st : List Word} (hdepth : st.length ≤ 16) (hst : ∀ a ∈ st, a.toNat ≤ 0x1000) :
    (s.setStack st).Inv := { h with depth_le := hdepth, stack_le := hst }

theorem setPc (h : s.Inv) (hw : s.wait = none) {a : Word} (ha : a.toNat ≤ 0x10FE) : (s.setPc a).Inv :=
  { h with pc_le := ha, wait_pc_le := fun hwait => by simp [hw] at hwait }

theorem endWait (h : s.Inv) : (s.setWait none).Inv :=
  { h with wait_running := fun hwait => by simp at hwait, wait_pc_le := fun hwait => by simp at hwait }

theorem raise (h : s.Inv) (hw : s.wait = none) {e : CoreError} (he : ∀ offset len, e ≠ .memoryOverflow offset len) :
    (raise e s).Inv :=
  { h with
    wait_running := fun hwait => by simp [hw] at hwait
    halt_kind := fun offset len => by simpa using he offset len }

theorem skipIf (h : s.Inv) (hw : s.wait = none) (hpc : s.pc.toNat ≤ 0x1000) (c : Bool) : (skipIf c s).Inv := by
  cases c
  · exact h
  · exact h.setPc hw (by rw [BitVec.toNat_add]; simp; omega)

theorem incrementI (h : s.Inv) (x : RegIdx) : (s.incrementI x).Inv := by
  unfold State.incrementI
  cases s.params.memIIncrement
  · exact h
  · exact h.setI (by rw [and_mask12_toNat]; omega)

/-- A key wait begins on a Running core, with `pc` at the instruction or after it (R288). -/
theorem beginWait (h : s.Inv) (hr : s.run = .running) (hpc2 : 2 ≤ s.pc.toNat) (hpc : s.pc.toNat ≤ 0x1000) (x : RegIdx) :
    (s.setWait (some x)).waitPc.Inv := by
  unfold State.waitPc
  cases (s.setWait (some x)).params.keywaitPc
  · exact { h with wait_running := fun _ => hr, wait_pc_le := fun _ => hpc }
  · have hback : (s.pc - 2#16).toNat ≤ 0x1000 := by bv_omega
    exact { h with
      pc_le := Nat.le_trans hback (by decide), wait_running := fun _ => hr, wait_pc_le := fun _ => hback }

end State.Inv

/-- If the outcome is a next state, it satisfies the invariant. -/
def OutcomeInv (o : Host.Outcome State Fault Refusal) : Prop := ∀ t, o = .next t → t.Inv

theorem OutcomeInv.of_next {t : State} (h : t.Inv) : OutcomeInv (.next t) := fun _ hu => by cases hu; exact h

/-- An execute rule that checks a range and then keeps the invariant. -/
theorem OutcomeInv.of_check {s t : State} {c : Except CoreError Unit} (hs : s.Inv) (hw : s.wait = none)
    (hc : c = .ok () ∨ ∃ a, c = .error (.outOfBounds a)) (ht : t.Inv) :
    OutcomeInv (complete s (c.map fun _ => t)) := by
  rcases hc with rfl | ⟨a, rfl⟩
  · exact .of_next ht
  · exact .of_next (hs.raise hw (by simp))

theorem OutcomeInv.of_skipIfKey {s : State} (hs : s.Inv) (hw : s.wait = none) (hpc : s.pc.toNat ≤ 0x1000) (down : Bool)
    (k : Byte) : OutcomeInv (skipIfKey down k s) := by
  rcases skipIfKey_cases down k s with ⟨c, hk⟩ | ⟨c, hk⟩ | ⟨-, -, hk⟩ <;> rw [hk]
  · exact .of_next (hs.skipIf hw hpc c)
  · exact .of_next (hs.bumpFree.skipIf hw hpc c)
  · intro t h; cases h

/-- An execute phase on a Running core with no wait pending, at an advanced `pc`, keeps the invariant. -/
theorem exec_outcomeInv {s : State} (hs : s.Inv) (hready : s.Ready) (hpc2 : 2 ≤ s.pc.toNat) (hpc : s.pc.toNat ≤ 0x1000)
    (i : Instr) : OutcomeInv (exec i s) := by
  obtain ⟨hr, hw⟩ := hready
  cases i
  case sys nnn =>
    simp only [exec, execSys]
    cases s.params.sysMode
    · exact .of_next hs
    · exact .of_next (hs.raise hw (by simp))
  case ret =>
    simp only [exec, execRet]
    rcases pop_cases s with ⟨-, hp⟩ | ⟨a, rest, hstack, hp⟩ <;> rw [hp]
    · exact .of_next (hs.raise hw (by simp))
    · obtain ⟨ha, hrest⟩ := List.forall_mem_cons.mp (hstack ▸ hs.stack_le)
      have hdepth : rest.length + 1 ≤ 16 := by simpa [hstack] using hs.depth_le
      exact .of_next ((hs.setStack (by omega) hrest).setPc hw (Nat.le_trans ha (by decide)))
  case call nnn =>
    simp only [exec, execCall]
    rcases push_cases s.pc s with ⟨-, hp⟩ | ⟨hroom, hp⟩ <;> rw [hp]
    · exact .of_next (hs.raise hw (by simp))
    · have hstack : ∀ a ∈ s.pc :: s.stack, a.toNat ≤ 0x1000 := List.forall_mem_cons.mpr ⟨hpc, hs.stack_le⟩
      exact .of_next ((hs.setStack (st := s.pc :: s.stack) hroom hstack).setPc hw (by rw [zext16_addr_toNat]; omega))
  case seImm | sneImm | seReg | sneReg => exact .of_next (hs.skipIf hw hpc _)
  case skp | sknp => exact .of_skipIfKey hs hw hpc _ _
  case jp nnn => exact .of_next (hs.setPc hw (by rw [zext16_addr_toNat]; omega))
  case jpV0 nnn =>
    refine .of_next (hs.setPc hw ?_)
    have := (s.readV 0x0#4).isLt
    rw [jumpTarget_toNat]
    split_ifs <;> omega
  case ldImm | addImm | ldReg | ldVxDt => exact .of_next (hs.writeV _ _)
  case orReg | andReg | xorReg => exact .of_next (hs.writeLogic _ _)
  case addReg | sub | subn | shr | shl => exact .of_next (hs.writeResult _ _)
  case rnd x nn => exact .of_next (hs.writeV _ _).bumpFree
  case cls => exact .of_next (hs.setDisp _)
  case ldDtVx => exact .of_next (hs.setDt _)
  case ldStVx => exact .of_next (hs.setSt _)
  case ldI nnn => exact .of_next (hs.setI (by rw [zext16_addr_toNat]; omega))
  case addI x => exact .of_next (hs.setI (by rw [and_mask12_toNat]; omega))
  case ldF x => exact .of_next (hs.setI (by rw [glyphAddr_toNat]; omega))
  case ldVxK x => exact .of_next (hs.beginWait hr hpc2 hpc x)
  case drw x y n => exact .of_check hs hw (checkSprite_cases _ _) ((hs.setDisp _).writeV _ _)
  case ldB x => exact .of_check hs hw (checkRange_cases _ _) (hs.setMem (Memory.writeList_wf hs.mem_wf _ _))
  case ldMemVx x =>
    exact .of_check hs hw (checkRange_cases _ _) ((hs.setMem (Memory.writeList_wf hs.mem_wf _ _)).incrementI x)
  case ldVxMem x => exact .of_check hs hw (checkRange_cases _ _) ((hs.setV _).incrementI x)

/-- The advance after a successful fetch: no wrap, and at most 0x1000 (R135). -/
theorem advance_pc_toNat {s : State} {w : Word} (hf : fetch s = .ok w) : s.advance.pc.toNat = s.pc.toNat + 2 := by
  have := fetch_ok_lt hf
  rw [State.advance_pc, BitVec.toNat_add, BitVec.toNat_ofNat]
  omega

theorem State.Inv.advance {s : State} (h : s.Inv) (hw : s.wait = none) {w : Word} (hf : fetch s = .ok w) :
    s.advance.Inv := by
  have hpc := advance_pc_toNat hf
  have := fetch_ok_lt hf
  exact h.setPc hw (by rw [State.advance_pc] at hpc; omega)

/-- A fetch fails with an access error, never with a failed host load. -/
theorem fetch_error_kind {s : State} {e : CoreError} (hf : fetch s = .error e) :
    0xFFF ≤ s.pc.toNat ∧ ∀ offset len, e ≠ .memoryOverflow offset len := by
  by_cases hpc : 0xFFF ≤ s.pc.toNat
  · rw [fetch_error hpc] at hf; cases hf
    exact ⟨hpc, by simp⟩
  · rw [fetch_ok (by omega)] at hf; cases hf

/-- Settles O4: a step stays, halts with an error of its own, or is an execute phase on the advanced state. -/
theorem stepKeepsInvariant : Obligations.StepKeepsInvariant := by
  intro s t hs h
  rcases step_cases h with ⟨e, -, rfl⟩ | ⟨x, -, -, rfl⟩ | ⟨⟨-, hw⟩, e, hf, rfl⟩ | ⟨⟨-, hw⟩, w, r, hf, -, rfl⟩ |
    ⟨hready, w, i, hf, -, hx⟩
  · exact hs
  · exact hs
  · exact hs.raise hw (fetch_error_kind hf).2
  · exact (hs.advance hw hf).raise hw (by simp)
  · have hpc := advance_pc_toNat hf
    have := fetch_ok_lt hf
    exact exec_outcomeInv (hs.advance hready.2 hf) hready (by omega) (by omega) i t hx

end Sys2Proof.Machine
end

section
/-! Construction (70_reset_and_hazards.md R390, 20_memory.md R71, R72), and the invariant of every state a run reaches. -/

namespace Sys2Proof.Machine

/-- The reset contents are 0 outside the font's 80 bytes (R71). -/
theorem Memory.unlisted_outside_font {a : Nat} (h : a < 0x050 ∨ 0x0A0 ≤ a) : Memory.unlisted a = 0#8 := by
  unfold Memory.unlisted
  split_ifs with hbase
  · have hlen : fontTable.length ≤ a - fontBase := by
      simp only [fontBase] at hbase ⊢
      rw [show fontTable.length = 80 from rfl]; omega
    exact List.getD_eq_default _ _ hlen
  · rfl

/-- Settles O2, field by field. -/
theorem resetSatisfiesInvariant : Obligations.ResetSatisfiesInvariant where
  mem_wf := rfl
  index_le := by decide
  pc_le := by decide
  depth_le := by decide
  stack_le := by simp [State.reset]
  wait_running := fun _ => rfl
  wait_pc_le := by decide
  halt_kind := by simp [State.reset]

/-- Settles O1: the registers, keys and pixels are replicated, and the unlisted memory is the font among zeros. -/
theorem resetHoldsTheTableValues : Obligations.ResetHoldsTheTableValues := by
  refine ⟨rfl, rfl, rfl, rfl, rfl, rfl, rfl, fun x => ?_, Display.pixel_clear, fun k => ?_, by decide, by decide, by decide,
    by decide, fun a => Memory.unlisted_outside_font⟩
  · simp [State.readV, State.reset]
  · simp [State.keyDown, State.reset]

section construct
variable (p : Params) (font : Vector Byte 80)

/-- Memory at construction is the font among zeros, whatever the font (R71). -/
theorem construct_read (a : Nat) : (construct p font).mem.read a =
    if 0x050 ≤ a ∧ a < 0x0A0 then font.toList.getD (a - 0x050) 0#8 else 0#8 := by
  have hlen : font.toList.length = 80 := by simp
  have hread : (construct p font).mem.read a = _ :=
    Memory.read_writeList (m := State.reset.mem) rfl (a := fontBase) (vs := font.toList)
      (by rw [hlen]; decide) a
  rw [hread, hlen]
  by_cases h : 0x050 ≤ a ∧ a < 0x0A0
  · rw [if_pos h]; exact if_pos h
  · rw [if_neg h]; exact (if_neg h).trans (Memory.unlisted_outside_font (by omega))

/-- Construction differs from the reset state in memory and the parameters alone (R390, R391). -/
theorem construct_onlyChanges : OnlyChanges [.mem, .params] State.reset (construct p font) := by
  have hparams := Component.onlyChanges_replaceFrom .params (construct p font)
    (State.reset.setMem (construct p font).mem)
  exact (State.reset.onlyChanges_setMem (construct p font).mem).trans hparams

theorem construct_inv : (construct p font).Inv := by
  have hmem : (State.reset.setMem (construct p font).mem).Inv :=
    State.Inv.setMem resetSatisfiesInvariant (Memory.writeList_wf rfl _ _)
  exact hmem.of_frame rfl ((Component.onlyChanges_replaceFrom .params (construct p font) _).mono (by decide))

end construct

/-- Settles O3, by what memory reads as and the frame against the reset state. -/
theorem constructionLoadsAnyFont : Obligations.ConstructionLoadsAnyFont := by
  refine fun p font => ⟨construct_inv p font, rfl, fun k => ?font, fun a ha => ?zeros, construct_onlyChanges p font⟩
  case font =>
    rw [construct_read, if_pos (by omega), Nat.add_sub_cancel_left, List.getD_eq_getElem _ _ (by simp)]
    rfl
  case zeros => rw [construct_read, if_neg (by omega)]

/-- A notification on a waiting core ends the wait, so `pc` may go past the bound of a wait (R289). -/
theorem State.Inv.notifyKey {s : State} (h : s.Inv) (k : Nibble) : (notifyKey k s).Inv := by
  unfold Machine.notifyKey
  split
  next x hr hw =>
    have hpc : s.pc.toNat ≤ 0x1000 := h.wait_pc_le (by rw [hw]; rfl)
    have hend : ((s.writeV x (k.setWidth 8)).setWait none).Inv := (h.writeV _ _).endWait
    unfold State.resumePc
    cases ((s.writeV x (k.setWidth 8)).setWait none).params.keywaitPc
    · exact hend
    · exact hend.skipIf rfl hpc true
  next => exact h

/-- Every transaction keeps the invariant. -/
theorem transact_inv {tr : Transaction} {s u : State} {a : Response} (hs : s.Inv) (h : transact tr s = .next (a, u)) :
    u.Inv := by
  cases tr
  case step => exact stepKeepsInvariant s u hs (transact_step_eq_next_iff.mp h).1
  case timerTick => cases h; exact (hs.setDt _).setSt _
  case write bytes offset =>
    by_cases hlen : offset + bytes.length ≤ 4096
    · rw [transact_write_of_ok (hostWrite_ok hlen s)] at h
      cases h; exact hs.setMem (Memory.writeList_wf hs.mem_wf _ _)
    · rw [transact_write_of_error (hostWrite_error (Nat.lt_of_not_le hlen) s)] at h
      cases h; exact hs
  case setKeys k => cases h; exact hs.setKeys k
  case notifyKey k => cases h; exact hs.notifyKey k
  case readDisplay | readRow | readSound | readState => cases h; exact hs

/-- Settles O5, by induction on the run. -/
theorem reachableStatesSatisfyInvariant : Obligations.ReachableStatesSatisfyInvariant := by
  refine ⟨construct_inv, fun tr s u a => transact_inv, fun s hs => ?_⟩
  induction hs with
  | construct p font => exact construct_inv p font
  | transact tr _ h ih => exact transact_inv ih h

end Sys2Proof.Machine
end

section
/-! The decoder (30_encoding.md R90-R98): it inverts the encoder on well-formed instructions (R92, R96), it rejects exactly the
words R98 lists, and it agrees with the opcode table. -/

namespace Sys2Proof

/-- No SYS of a well-formed instruction is encoded as the word of CLS or RET (R95). -/
theorem wordA_zero_ne {nnn k : Addr12} (h : nnn ≠ k) : wordA 0x0#4 nnn ≠ wordA 0x0#4 k := fun he =>
  h (by rw [← nnnField_wordA 0x0#4 nnn, he, nnnField_wordA])

theorem decode_sys {nnn : Addr12} (h : (Instr.sys nnn).wellFormed = true) :
    decode (wordA 0x0#4 nnn) = .ok (.sys nnn) := by
  have hne : nnn ≠ 0x0E0#12 ∧ nnn ≠ 0x0EE#12 := by simpa [Instr.wellFormed] using h
  have hE0 : wordA 0x0#4 nnn ≠ 0x00E0#16 := wordA_zero_ne hne.1
  have hEE : wordA 0x0#4 nnn ≠ 0x00EE#16 := wordA_zero_ne hne.2
  simp [decode, hE0, hEE]

/-- The decoder gives back what was encoded: its fields are read back from the format, and the op and the fixed sub-field
select the arm (R94-R96). -/
theorem decode_encode {i : Instr} (h : i.wellFormed = true) : decode (encode i) = .ok i := by
  cases i
  case sys nnn => exact decode_sys h
  case cls | ret => decide
  all_goals simp [encode, decode]

theorem decodeBytes_encodeBytes {i : Instr} (h : i.wellFormed = true) (rest : List Byte) :
    decodeBytes (encodeBytes i ++ rest) = .ok (i, rest) := by
  simp only [encodeBytes, List.cons_append, List.nil_append, decodeBytes, wordOfBytes_bytes, decode_encode h]

/-- Settles O6, on words and through the two bytes of a word. -/
theorem decodeOfEncodeIsIdentity : Obligations.DecodeOfEncodeIsIdentity := fun _ h =>
  ⟨decode_encode h, decodeBytes_encodeBytes h⟩

/-- The op, `n` and `nn` of a word that R98 lists as unknown. -/
def UnknownFields (op n nn : Nat) : Prop :=
  (op = 5 ∧ n ≠ 0) ∨ (op = 9 ∧ n ≠ 0) ∨ (op = 8 ∧ n ∈ [0x8, 0x9, 0xA, 0xB, 0xC, 0xD, 0xF]) ∨
    (op = 0xE ∧ nn ∉ [0x9E, 0xA1]) ∨
    (op = 0xF ∧ nn ∉ [0x07, 0x0A, 0x15, 0x18, 0x1E, 0x29, 0x33, 0x55, 0x65])

/-- The answer is the one R96 and R98 give the word: an instruction that stands for it, or its rejection by name. -/
def RightAnswer (w : Word) : Except Reject Instr → Prop
  | .ok i => i.wellFormed = true ∧ encode i = w ∧ ¬ UnknownFields (w.toNat / 4096) (w.toNat % 16) (w.toNat % 256)
  | .error r => r = .unknownOpcode w ∧ UnknownFields (w.toNat / 4096) (w.toNat % 16) (w.toNat % 256)

section formats
variable {w : Word} {op n : Nibble} {nn : Byte}

theorem wordA_nnnField (hop : (opField w).toNat = op.toNat) : wordA op (nnnField w) = w := by
  rw [← BitVec.eq_of_toNat_eq hop, wordA_fields]

theorem wordXB_nnField (hop : (opField w).toNat = op.toNat) : wordXB op (xField w) (nnField w) = w := by
  rw [← BitVec.eq_of_toNat_eq hop, wordXB_fields]

theorem wordXB_xField (hop : (opField w).toNat = op.toNat) (hnn : (nnField w).toNat = nn.toNat) :
    wordXB op (xField w) nn = w := by
  rw [← BitVec.eq_of_toNat_eq hnn, wordXB_nnField hop]

theorem wordXYN_nField (hop : (opField w).toNat = op.toNat) :
    wordXYN op (xField w) (yField w) (nField w) = w := by
  rw [← BitVec.eq_of_toNat_eq hop, wordXYN_fields]

theorem wordXYN_xyField (hop : (opField w).toNat = op.toNat) (hn : (nField w).toNat = n.toNat) :
    wordXYN op (xField w) (yField w) n = w := by
  rw [← BitVec.eq_of_toNat_eq hn, wordXYN_nField hop]

end formats

theorem not_unknownFields {op n nn : Nat} (h : op ∉ [5, 8, 9, 0xE, 0xF]) : ¬ UnknownFields op n nn := by
  simp only [List.mem_cons, List.not_mem_nil, or_false, not_or] at h
  simp [UnknownFields, h]

/-- An arm of the decoder without a fixed sub-field. -/
theorem RightAnswer.of_op {w : Word} {i : Instr} (hwf : i.wellFormed = true) (he : encode i = w) {op : Nat}
    (hop : (opField w).toNat = op) (h : op ∉ [5, 8, 9, 0xE, 0xF]) : RightAnswer w (.ok i) := by
  rw [opField_toNat] at hop
  exact ⟨hwf, he, by rw [hop]; exact not_unknownFields h⟩

/-- An arm of the decoder selected by the last nibble. -/
theorem RightAnswer.of_n {w : Word} {i : Instr} (hwf : i.wellFormed = true) (he : encode i = w) {op n : Nat}
    (hop : (opField w).toNat = op) (hn : (nField w).toNat = n) (h : ∀ nn, ¬ UnknownFields op n nn) :
    RightAnswer w (.ok i) := by
  rw [opField_toNat] at hop
  rw [nField_toNat] at hn
  exact ⟨hwf, he, by rw [hop, hn]; exact h _⟩

/-- An arm of the decoder selected by the low byte. -/
theorem RightAnswer.of_nn {w : Word} {i : Instr} (hwf : i.wellFormed = true) (he : encode i = w) {op nn : Nat}
    (hop : (opField w).toNat = op) (hnn : (nnField w).toNat = nn) (h : ∀ n, ¬ UnknownFields op n nn) :
    RightAnswer w (.ok i) := by
  rw [opField_toNat] at hop
  rw [nnField_toNat] at hnn
  exact ⟨hwf, he, by rw [hop, hnn]; exact h _⟩

theorem RightAnswer.of_unknown {w : Word}
    (h : UnknownFields (opField w).toNat (nField w).toNat (nnField w).toNat) :
    RightAnswer w (.error (.unknownOpcode w)) := by
  rw [opField_toNat, nField_toNat, nnField_toNat] at h
  exact ⟨rfl, h⟩

/-- The words with op 0: CLS, RET and every other one SYS (R95). -/
theorem RightAnswer.of_zero {w : Word} (h : (opField w).toNat = 0) : RightAnswer w
    (if w = 0x00E0#16 then .ok .cls else if w = 0x00EE#16 then .ok .ret else .ok (.sys (nnnField w))) := by
  have hw : wordA 0x0#4 (nnnField w) = w := wordA_nnnField h
  split_ifs with hcls hret
  · exact .of_op rfl hcls.symm h (by decide)
  · exact .of_op rfl hret.symm h (by decide)
  · refine .of_op ?_ hw h (by decide)
    have hE0 : nnnField w ≠ 0x0E0#12 := fun he => hcls (by rw [← hw, he]; rfl)
    have hEE : nnnField w ≠ 0x0EE#12 := fun he => hret (by rw [← hw, he]; rfl)
    simp [Instr.wellFormed, hE0, hEE]

/-- The decoder answers rightly on every word: one arm after the other. -/
theorem decode_rightAnswer (w : Word) : RightAnswer w (decode w) := by
  unfold decode
  dsimp only
  split
  next h => exact .of_zero h
  next h => exact .of_op rfl (wordA_nnnField h) h (by decide)
  next h => exact .of_op rfl (wordA_nnnField h) h (by decide)
  next h => exact .of_op rfl (wordXB_nnField h) h (by decide)
  next h => exact .of_op rfl (wordXB_nnField h) h (by decide)
  next h =>
    split_ifs with hn
    · exact .of_n rfl (wordXYN_xyField h (congrArg _ hn)) h (congrArg _ hn) (by simp [UnknownFields])
    · exact .of_unknown (by simpa [UnknownFields, h] using fun hz => hn (BitVec.eq_of_toNat_eq hz))
  next h => exact .of_op rfl (wordXB_nnField h) h (by decide)
  next h => exact .of_op rfl (wordXB_nnField h) h (by decide)
  next h =>
    split
    case h_10 =>
      refine .of_unknown ?_
      have := (nField w).isLt
      simp only [imp_false] at *
      simp [UnknownFields, h]
      omega
    all_goals
      next hn => exact .of_n rfl (wordXYN_xyField h hn) h hn (by simp [UnknownFields])
  next h =>
    split_ifs with hn
    · exact .of_n rfl (wordXYN_xyField h (congrArg _ hn)) h (congrArg _ hn) (by simp [UnknownFields])
    · exact .of_unknown (by simpa [UnknownFields, h] using fun hz => hn (BitVec.eq_of_toNat_eq hz))
  next h => exact .of_op rfl (wordA_nnnField h) h (by decide)
  next h => exact .of_op rfl (wordA_nnnField h) h (by decide)
  next h => exact .of_op rfl (wordXB_nnField h) h (by decide)
  next h => exact .of_op rfl (wordXYN_nField h) h (by decide)
  next h =>
    split
    case h_3 => refine .of_unknown ?_; simp_all [UnknownFields]
    all_goals
      next hnn => exact .of_nn rfl (wordXB_xField h hnn) h hnn (by simp [UnknownFields])
  next =>
    have h : (opField w).toNat = 0xF := by
      have := (opField w).isLt
      simp only [imp_false] at *
      omega
    split
    case h_10 => refine .of_unknown ?_; simp_all [UnknownFields]
    all_goals
      next hnn => exact .of_nn rfl (wordXB_xField h hnn) h hnn (by simp [UnknownFields])

theorem decode_ok {w : Word} {i : Instr} (h : decode w = .ok i) : i.wellFormed = true ∧ encode i = w ∧
    ¬ UnknownFields (w.toNat / 4096) (w.toNat % 16) (w.toNat % 256) := by
  have hright := decode_rightAnswer w
  rwa [h] at hright

theorem decode_error {w : Word} {r : Reject} (h : decode w = .error r) :
    r = .unknownOpcode w ∧ UnknownFields (w.toNat / 4096) (w.toNat % 16) (w.toNat % 256) := by
  have hright := decode_rightAnswer w
  rwa [h] at hright

/-- Settles O7, by the right answer on every word. -/
theorem encodeOfDecodeIsIdentity : Obligations.EncodeOfDecodeIsIdentity := fun _ _ h =>
  ⟨(decode_ok h).1, (decode_ok h).2.1⟩

/-- Settles O8, by the right answer on every word. -/
theorem unknownWordsAreExactlyTheListed : Obligations.UnknownWordsAreExactlyTheListed := by
  intro w op n nn
  cases h : decode w with
  | ok i =>
    have hknown : ¬ UnknownFields op n nn := (decode_ok h).2.2
    exact ⟨iff_of_false (by simp) hknown, .inr ⟨i, rfl⟩⟩
  | error r =>
    obtain ⟨rfl, hunknown⟩ := decode_error h
    exact ⟨iff_of_true rfl hunknown, .inl rfl⟩

theorem encode_hitsRow (i : Instr) : Laws.EncodeHitsRow.Statement i := by
  cases i
  case sys nnn => exact Laws.EncodeHitsRow.sys nnn
  case cls => exact Laws.EncodeHitsRow.cls
  case ret => exact Laws.EncodeHitsRow.ret
  case jp nnn => exact Laws.EncodeHitsRow.jp nnn
  case call nnn => exact Laws.EncodeHitsRow.call nnn
  case seImm x nn => exact Laws.EncodeHitsRow.seImm x nn
  case sneImm x nn => exact Laws.EncodeHitsRow.sneImm x nn
  case seReg x y => exact Laws.EncodeHitsRow.seReg x y
  case ldImm x nn => exact Laws.EncodeHitsRow.ldImm x nn
  case addImm x nn => exact Laws.EncodeHitsRow.addImm x nn
  case ldReg x y => exact Laws.EncodeHitsRow.ldReg x y
  case orReg x y => exact Laws.EncodeHitsRow.orReg x y
  case andReg x y => exact Laws.EncodeHitsRow.andReg x y
  case xorReg x y => exact Laws.EncodeHitsRow.xorReg x y
  case addReg x y => exact Laws.EncodeHitsRow.addReg x y
  case sub x y => exact Laws.EncodeHitsRow.sub x y
  case shr x y => exact Laws.EncodeHitsRow.shr x y
  case subn x y => exact Laws.EncodeHitsRow.subn x y
  case shl x y => exact Laws.EncodeHitsRow.shl x y
  case sneReg x y => exact Laws.EncodeHitsRow.sneReg x y
  case ldI nnn => exact Laws.EncodeHitsRow.ldI nnn
  case jpV0 nnn => exact Laws.EncodeHitsRow.jpV0 nnn
  case rnd x nn => exact Laws.EncodeHitsRow.rnd x nn
  case drw x y n => exact Laws.EncodeHitsRow.drw x y n
  case skp x => exact Laws.EncodeHitsRow.skp x
  case sknp x => exact Laws.EncodeHitsRow.sknp x
  case ldVxDt x => exact Laws.EncodeHitsRow.ldVxDt x
  case ldVxK x => exact Laws.EncodeHitsRow.ldVxK x
  case ldDtVx x => exact Laws.EncodeHitsRow.ldDtVx x
  case ldStVx x => exact Laws.EncodeHitsRow.ldStVx x
  case addI x => exact Laws.EncodeHitsRow.addI x
  case ldF x => exact Laws.EncodeHitsRow.ldF x
  case ldB x => exact Laws.EncodeHitsRow.ldB x
  case ldMemVx x => exact Laws.EncodeHitsRow.ldMemVx x
  case ldVxMem x => exact Laws.EncodeHitsRow.ldVxMem x

/-- The fixed bits of the two rows differ where both fix a bit, or one row is a single word that the other excludes. -/
def OpRow.Apart (r r' : OpRow) : Prop :=
  r.pattern &&& r'.mask ≠ r'.pattern &&& r.mask ∨ (r.mask = 0xFFFF#16 ∧ r.pattern ∈ r'.excludes) ∨
    (r'.mask = 0xFFFF#16 ∧ r'.pattern ∈ r.excludes)

theorem OpRow.hits_iff {r : OpRow} {w : Word} : r.hits w = true ↔ w &&& r.mask = r.pattern ∧ w ∉ r.excludes := by
  simp [OpRow.hits]

theorem OpRow.Apart.not_hits {r r' : OpRow} (h : r.Apart r') {w : Word} (hr : r.hits w = true) : r'.hits w = false := by
  by_contra hr'
  rw [Bool.not_eq_false] at hr'
  obtain ⟨hm, hx⟩ := OpRow.hits_iff.mp hr
  obtain ⟨hm', hx'⟩ := OpRow.hits_iff.mp hr'
  rcases h with hne | ⟨hall, hin⟩ | ⟨hall, hin⟩
  · exact hne (by rw [← hm, ← hm', BitVec.and_assoc, BitVec.and_assoc, BitVec.and_comm r.mask])
  · have hw : w = r.pattern := by rw [← hm, hall]; exact (BitVec.and_allOnes (x := w)).symm
    exact hx' (hw ▸ hin)
  · have hw : w = r'.pattern := by rw [← hm', hall]; exact (BitVec.and_allOnes (x := w)).symm
    exact hx (hw ▸ hin)

theorem OpRow.Apart.symm {r r' : OpRow} (h : r.Apart r') : r'.Apart r := by
  rcases h with hne | hin | hin
  · exact .inl hne.symm
  · exact .inr (.inr hin)
  · exact .inr (.inl hin)

theorem opcodeRows_apart : opcodeRows.Pairwise OpRow.Apart := by
  unfold OpRow.Apart; decide

/-- No two rows overlap. -/
theorem opcodeRow_eq_of_hits {r r' : OpRow} (hr : r ∈ opcodeRows) (hr' : r' ∈ opcodeRows) {w : Word}
    (h : r.hits w = true) (h' : r'.hits w = true) : r = r' := by
  by_contra hne
  have hsymm : Std.Symm OpRow.Apart := ⟨fun _ _ => OpRow.Apart.symm⟩
  have hapart : r.Apart r' := opcodeRows_apart.forall hr hr' hne
  rw [hapart.not_hits h] at h'
  cases h'

theorem opcodeRows_mnemonics_nodup : (opcodeRows.map OpRow.mnemonic).Nodup := by decide

/-- The row fixes the op, and the sub-field of a family that has one, to values that R98 does not list as unknown. -/
def OpRow.Known (r : OpRow) : Prop :=
  opField r.mask = 0xF#4 ∧
    ((opField r.pattern).toNat ∉ [5, 8, 9, 0xE, 0xF] ∨
      (nField r.mask = 0xF#4 ∧ (opField r.pattern).toNat ∈ [5, 8, 9] ∧
        ¬ UnknownFields (opField r.pattern).toNat (nField r.pattern).toNat 0) ∨
      (nnField r.mask = 0xFF#8 ∧ (opField r.pattern).toNat ∈ [0xE, 0xF] ∧
        ¬ UnknownFields (opField r.pattern).toNat 0 (nnField r.pattern).toNat))

theorem opcodeRows_known : ∀ r ∈ opcodeRows, r.Known := by
  unfold OpRow.Known UnknownFields; decide

/-- A word that a known row's fixed bits match is not unknown. -/
theorem OpRow.Known.not_unknownFields {r : OpRow} (h : r.Known) {w : Word} (hw : w &&& r.mask = r.pattern) :
    ¬ UnknownFields (w.toNat / 4096) (w.toNat % 16) (w.toNat % 256) := by
  rw [← opField_toNat, ← nField_toNat, ← nnField_toNat]
  obtain ⟨hopMask, hfields⟩ := h
  have hop : opField r.pattern = opField w := by
    rw [← hw, opField, BitVec.extractLsb'_and, ← opField, ← opField, hopMask, nibble_and_ones]
  rw [hop] at hfields
  rcases hfields with hfree | ⟨hmask, hfam, hknown⟩ | ⟨hmask, hfam, hknown⟩
  · exact Sys2Proof.not_unknownFields hfree
  · have hn : nField r.pattern = nField w := by
      rw [← hw, nField, BitVec.extractLsb'_and, ← nField, ← nField, hmask, nibble_and_ones]
    rw [hn] at hknown
    simp [UnknownFields] at hfam hknown ⊢
    omega
  · have hnn : nnField r.pattern = nnField w := by
      rw [← hw, nnField, BitVec.extractLsb'_and, ← nnField, ← nnField, hmask]
      exact BitVec.and_allOnes
    rw [hnn] at hknown
    simp [UnknownFields] at hfam hknown ⊢
    omega

/-- Settles O9: a word that decodes is the encoding of its instruction and hits that row, no two rows overlap, and a rejected
word has fields that no row fixes. -/
theorem decodeAgreesWithOpcodeTable : Obligations.DecodeAgreesWithOpcodeTable := by
  refine fun w => ⟨fun i h row hrow => ?_, fun r h row hrow => ?_⟩
  · obtain ⟨hwf, rfl, -⟩ := decode_ok h
    obtain ⟨own, hown, hname, hhits⟩ := encode_hitsRow i hwf
    constructor
    · intro hit
      rw [opcodeRow_eq_of_hits hrow hown hit hhits, hname]
    · intro hsame
      rwa [List.inj_on_of_nodup_map opcodeRows_mnemonics_nodup hrow hown (hsame.trans hname.symm)]
  · rw [← Bool.not_eq_true]
    intro hit
    exact (opcodeRows_known row hrow).not_unknownFields (OpRow.hits_iff.mp hit).1 (decode_error h).2

end Sys2Proof
end

section
/-! The step and its endings (40_pipeline.md R134-R139, 60_exceptions.md R341-R344): where the fetch fails, what an error leaves,
and that a Halted core and one that waits for a key stand still. -/

namespace Sys2Proof.Machine

theorem State.not_halted_of_running {s : State} (h : s.run = .running) {e : CoreError} : s.run ≠ .halted e := by
  simp [h]

/-- Settles O13, by the fetch's bound. -/
theorem fetchFailsAtTheFirstInvalidAddress : Obligations.FetchFailsAtTheFirstInvalidAddress := fun s hs =>
  ⟨fun hpc => ⟨_, step_of_fetch_error hs (fetch_error hpc), rfl, onlyChanges_raise _ s⟩, fun hpc => ⟨_, fetch_ok hpc⟩⟩

/-- An error raised after the advance (R135, R342). -/
theorem onlyChanges_raise_advance (e : CoreError) (s : State) : OnlyChanges [.run, .pc] s (raise e s.advance) :=
  (s.onlyChanges_advance.trans (onlyChanges_raise e s.advance)).mono (by decide)

/-- Settles O14, by the step on an unknown word. -/
theorem unknownWordHalts : Obligations.UnknownWordHalts := fun s _ _ hs hf hd =>
  ⟨_, step_of_unknown hs hf hd, rfl, rfl, onlyChanges_raise_advance _ s⟩

/-- Everything a step that halts a Running core can have done: an error of the fetch, raised where it stood, or one raised after
the advance. -/
theorem step_halt_cases {s t : State} {e : CoreError} (hrun : s.run = .running) (h : step s = .next t)
    (ht : t.run = .halted e) : s.wait = none ∧ (∀ offset len, e ≠ .memoryOverflow offset len) ∧
      (0xFFF ≤ s.pc.toNat ∧ t = raise e s ∨ s.pc.toNat < 0xFFF ∧ t = raise e s.advance) := by
  rcases step_cases h with ⟨e', hr, -⟩ | ⟨x, -, -, rfl⟩ | ⟨⟨-, hw⟩, e', hf, rfl⟩ | ⟨⟨-, hw⟩, w, r, hf, -, rfl⟩ |
    ⟨⟨-, hw⟩, w, i, hf, -, hx⟩
  · exact absurd hr (State.not_halted_of_running hrun)
  · exact absurd ht (State.not_halted_of_running hrun)
  · obtain ⟨hpc, hkind⟩ := fetch_error_kind hf
    cases ht
    exact ⟨hw, hkind, .inl ⟨hpc, rfl⟩⟩
  · cases ht
    exact ⟨hw, by simp, .inr ⟨fetch_ok_lt hf, rfl⟩⟩
  · rcases exec_run hx with hsame | ⟨e', rfl, hkind⟩
    · exact absurd ht (State.not_halted_of_running (hsame.trans hrun))
    · cases ht
      exact ⟨hw, hkind, .inr ⟨fetch_ok_lt hf, rfl⟩⟩

/-- Settles O15, by the two places where a step can raise an error. -/
theorem errorsArePrecise : Obligations.ErrorsArePrecise := by
  intro s t e hrun h ht
  obtain ⟨hw, hkind, ⟨hpc, rfl⟩ | ⟨hpc, rfl⟩⟩ := step_halt_cases hrun h ht
  · exact ⟨hw, (onlyChanges_raise e s).mono (by decide), fun _ => rfl, fun hlt => absurd hlt (by omega), rfl, hkind⟩
  · exact ⟨hw, onlyChanges_raise_advance e s, fun hge => absurd hge (by omega), fun _ => rfl, rfl, hkind⟩

/-- A core that waits for a key takes no step (R133). -/
theorem step_of_wait {s : State} {x : RegIdx} (hr : s.run = .running) (hw : s.wait = some x) : step s = .next s := by
  simp only [step, stepOnce, hr, hw]

theorem notifyKey_of_not_waiting {s : State} (h : s.run ≠ .running ∨ s.wait = none) (k : Nibble) : notifyKey k s = s := by
  unfold notifyKey
  split
  next hr hw => simp [hr, hw] at h
  next => rfl

theorem timerTick_onlyChanges (s : State) : OnlyChanges [.dt, .st] s (timerTick s) :=
  (s.onlyChanges_setDt _).trans (State.onlyChanges_setSt _ _)

/-- A transaction on a core that takes no step, and that ignores the notification if it is one: it completes, and changes the
memory, the keys and the timers at most (R130). -/
theorem transact_of_step_self {s : State} (hstep : step s = .next s) {tr : Transaction}
    (hnotify : ∀ k, tr = .notifyKey k → notifyKey k s = s) :
    ∃ a u, transact tr s = .next (a, u) ∧ OnlyChanges [.mem, .keys, .dt, .st] s u := by
  cases tr
  case step => exact ⟨_, s, transact_step_of_next hstep, .refl _ s⟩
  case timerTick => exact ⟨_, _, rfl, (timerTick_onlyChanges s).mono (by decide)⟩
  case write bytes offset =>
    cases h : hostWrite bytes offset s with
    | ok u => exact ⟨_, u, transact_write_of_ok h, (transact_write_onlyChanges (transact_write_of_ok h)).mono (by decide)⟩
    | error e => exact ⟨_, s, transact_write_of_error h, .refl _ s⟩
  case setKeys k => exact ⟨_, _, rfl, (s.onlyChanges_setKeys k).mono (by decide)⟩
  case notifyKey k => exact ⟨_, _, rfl, (hnotify k rfl).symm ▸ .refl _ s⟩
  case readDisplay | readRow | readSound | readState => exact ⟨_, s, rfl, .refl _ s⟩

/-- The induction over a list of transactions: what each of them keeps, the list keeps (R75). -/
theorem transactAll_induct {P : State → Prop} {cs : List Component} {ts : List Transaction}
    (hkeep : ∀ tr ∈ ts, ∀ s, P s → ∃ a u, transact tr s = .next (a, u) ∧ P u ∧ OnlyChanges cs s u) {s : State} (hs : P s) :
    ∃ a u, transactAll ts s = .next (a, u) ∧ P u ∧ OnlyChanges cs s u := by
  induction ts generalizing s with
  | nil => exact ⟨[], s, rfl, hs, .refl _ s⟩
  | cons tr ts ih =>
    obtain ⟨hhead, htail⟩ := List.forall_mem_cons.mp hkeep
    obtain ⟨a, u, htr, hu, hframe⟩ := hhead s hs
    obtain ⟨as, v, hts, hv, hrest⟩ := ih htail hu
    exact ⟨a :: as, v, by simp only [transactAll, htr, hts], hv, hframe.trans_within hrest⟩

/-- Settles O16: a Halted core takes no step and ignores notifications, and no transaction but those changes `run`. -/
theorem haltedIsTerminal : Obligations.HaltedIsTerminal := by
  intro ts s e hs
  refine transactAll_induct (P := fun u => u.run = .halted e) (fun tr _ u hu => ?_) hs
  have hignored (k : Nibble) : notifyKey k u = u := notifyKey_of_not_waiting (.inl (by simp [hu])) k
  obtain ⟨a, v, htr, hframe⟩ := transact_of_step_self (step_of_halted hu) (tr := tr) fun k _ => hignored k
  exact ⟨a, v, htr, Eq.trans (hframe .run (by decide)) hu, hframe⟩

theorem State.status_of_wait {s : State} {x : RegIdx} (hr : s.run = .running) (hw : s.wait = some x) :
    s.status = .awaitingKey := by
  simp only [State.status, hr, hw, Option.isSome_some, if_true]

/-- Settles O17: a waiting core takes no step, and no transaction but a notification changes `run` or `wait`. -/
theorem keyWaitHoldsUntilNotified : Obligations.KeyWaitHoldsUntilNotified := by
  intro ts s x hr hw hno
  constructor
  · rw [transact_step_of_next (step_of_wait hr hw), State.status_of_wait hr hw]
  · have hkeep : ∀ tr ∈ ts, ∀ u : State, u.run = .running ∧ u.wait = some x → ∃ a v, transact tr u = .next (a, v) ∧
        (v.run = .running ∧ v.wait = some x) ∧ OnlyChanges [.mem, .keys, .dt, .st] u v := by
      rintro tr htr u ⟨hur, huw⟩
      obtain ⟨a, v, hv, hframe⟩ := transact_of_step_self (step_of_wait hur huw) (tr := tr)
        fun k hk => absurd (hk ▸ htr) (hno k)
      exact ⟨a, v, hv, ⟨Eq.trans (hframe .run (by decide)) hur, Eq.trans (hframe .wait (by decide)) huw⟩, hframe⟩
    obtain ⟨a, u, hu, -, hframe⟩ := transactAll_induct hkeep ⟨hr, hw⟩
    exact ⟨a, u, hu, hframe⟩

/-- Everything a step can answer: a next state, or the refusal of a key index above 0xF that the parameter asks for. -/
theorem step_answers (s : State) : (∃ t, step s = .next t) ∨
    (s.params.keyIndexOor = .refuse ∧ ∃ k, 0xF < k.toNat ∧ step s = .refused (.keyIndexOutOfRange k)) := by
  cases hr : s.run with
  | halted e => exact .inl ⟨s, step_of_halted hr⟩
  | running =>
    cases hw : s.wait with
    | some x => exact .inl ⟨s, step_of_wait hr hw⟩
    | none =>
      cases hf : fetch s with
      | error e => exact .inl ⟨_, step_of_fetch_error ⟨hr, hw⟩ hf⟩
      | ok w =>
        cases hd : decode w with
        | error r => exact .inl ⟨_, step_of_unknown ⟨hr, hw⟩ hf hd⟩
        | ok i =>
          rw [step_of_decode ⟨hr, hw⟩ hf hd]
          rcases exec_allowedOutcome i s.advance with ⟨t, ht, -⟩ | ⟨e, he, -⟩ | hrefused
          · exact .inl ⟨t, ht⟩
          · exact .inl ⟨_, he⟩
          · exact .inr hrefused

/-- Settles O18, by everything a step can answer. -/
theorem stepAlwaysAnswersANextState : Obligations.StepAlwaysAnswersANextState := by
  refine fun s => ⟨fun hp => ?_, fun r hr => ?_⟩
  · exact (step_answers s).resolve_right fun hrefused => hp hrefused.1
  · rcases step_answers s with ⟨t, ht⟩ | ⟨hp, k, hk, hk'⟩
    · rw [hr] at ht; cases ht
    · rw [hr] at hk'; cases hk'; exact ⟨hp, k, rfl, hk⟩

theorem exec_sys_nop {s : State} (h : s.params.sysMode = .nop) (nnn : Addr12) : exec (.sys nnn) s = .next s := by
  simp only [exec, execSys, h]

/-- SYS under Halt raises UnknownOpcode with its own word (R163). -/
theorem exec_sys_halt {s : State} (h : s.params.sysMode = .halt) (nnn : Addr12) :
    exec (.sys nnn) s = .next (raise (.unknownOpcode (encode (.sys nnn)) s.fetchAddr) s) := by
  simp only [exec, execSys, h]; rfl

/-- Settles O20, by SYS under each mode. -/
theorem sysFollowsItsMode : Obligations.SysFollowsItsMode := fun s nnn =>
  ⟨fun h => exec_sys_nop h nnn, fun h => ⟨_, exec_sys_halt h nnn, rfl, onlyChanges_raise _ s⟩⟩

/-- SKP and SKNP on an index that is in range, or where the parameter is not Refuse, answer a next state (R286). -/
theorem skipIfKey_completes {s : State} {k : Byte} (h : k ≤ 0x0F#8 ∨ s.params.keyIndexOor ≠ .refuse) (down : Bool) :
    ∃ t, skipIfKey down k s = .next t ∧ t.run = s.run := by
  rcases skipIfKey_cases down k s with ⟨c, hk⟩ | ⟨c, hk⟩ | ⟨hp, hlarge, -⟩
  · exact ⟨_, hk, skipIf_run c s⟩
  · exact ⟨_, hk, skipIf_run c s.bumpFree⟩
  · have hin : k ≤ 0x0F#8 := h.resolve_right fun hne => hne hp
    exact absurd hlarge (by bv_omega)

theorem exec_completes {i : Instr} {s t : State} (h : exec i s = .next t) (hi : .run ∉ i.footprint) :
    ∃ u, exec i s = .next u ∧ u.run = s.run := ⟨t, h, exec_onlyChanges_footprint h .run hi⟩

/-- Settles O19: SYS under Nop and the key skips one by one; any other is a next state with `run` outside its footprint. -/
theorem noErrorInstructionsComplete : Obligations.NoErrorInstructionsComplete := by
  intro s i hi
  cases i
  case sys nnn => exact ⟨s, exec_sys_nop hi nnn, rfl⟩
  case skp x => exact skipIfKey_completes hi true
  case sknp x => exact skipIfKey_completes hi false
  case call | ret | drw | ldB | ldMemVx | ldVxMem => exact hi.elim
  all_goals exact exec_completes rfl (by simp [Instr.footprint])

/-- Settles O10, by running the decoder. -/
theorem sampleWordsDecode : Obligations.SampleWordsDecode := by
  unfold Obligations.SampleWordsDecode; decide

end Sys2Proof.Machine
end

section
/-! Control flow with the call stack and the skips (41_control_flow.md R160-R172), and the key instructions and transactions
(44_draw_input.md R286-R290). -/

namespace Sys2Proof.Machine

/-- CALL with room on the stack (R167). -/
theorem exec_call_of_room {s : State} (h : s.stack.length < 16) (nnn : Addr12) :
    exec (.call nnn) s = .next ((s.setStack (s.pc :: s.stack)).setPc (zext16 nnn)) := by
  simp only [exec, execCall, push, if_neg (Nat.not_le.mpr h), Except.map, complete_ok]

/-- CALL on a full stack (R161, R167). -/
theorem exec_call_of_full {s : State} (h : s.stack.length = 16) (nnn : Addr12) :
    exec (.call nnn) s = .next (raise (.stackOverflow s.fetchAddr) s) := by
  simp only [exec, execCall, push, if_pos h.ge, Except.map, complete_error]

/-- RET with a return address (R165). -/
theorem exec_ret_of_cons {s : State} {a : Word} {rest : List Word} (h : s.stack = a :: rest) :
    exec .ret s = .next ((s.setStack rest).setPc a) := by
  simp only [exec, execRet, pop, h, Except.map, complete_ok]

/-- RET on an empty stack (R162, R165). -/
theorem exec_ret_of_nil {s : State} (h : s.stack = []) :
    exec .ret s = .next (raise (.stackUnderflow s.fetchAddr) s) := by
  simp only [exec, execRet, pop, h, Except.map, complete_error]

theorem State.onlyChanges_setStack_setPc (s : State) (st : List Word) (a : Word) :
    OnlyChanges [.stack, .pc] s ((s.setStack st).setPc a) :=
  (s.onlyChanges_setStack st).trans (State.onlyChanges_setPc _ a)

/-- Settles O23, by CALL with room and CALL on a full stack. -/
theorem callPushesTheReturnAddress : Obligations.CallPushesTheReturnAddress := fun s nnn =>
  ⟨fun h => ⟨_, exec_call_of_room h nnn, rfl, zext16_addr_toNat nnn, s.onlyChanges_setStack_setPc _ _⟩,
    fun h => ⟨_, exec_call_of_full h nnn, rfl, onlyChanges_raise _ s⟩⟩

/-- Settles O24: RET takes the top entry, which after a CALL is the address the CALL pushed. -/
theorem retPopsTheReturnAddress : Obligations.RetPopsTheReturnAddress := by
  refine ⟨fun s a rest h => ?pop, fun s h => ?empty, fun s t u nnn hroom hcall hu => ?undo⟩
  case pop => exact ⟨_, exec_ret_of_cons h, rfl, rfl, s.onlyChanges_setStack_setPc rest a⟩
  case empty => exact ⟨_, exec_ret_of_nil h, rfl, onlyChanges_raise _ s⟩
  case undo =>
    rw [exec_call_of_room hroom] at hcall
    cases hcall
    exact ⟨_, exec_ret_of_cons hu, rfl, rfl⟩

/-- A skip adds 2 to `pc` exactly under its condition (R160). -/
theorem skipIf_pc (c : Bool) (s : State) : (skipIf c s).pc = if c = true then s.pc + 2#16 else s.pc := by
  cases c <;> rfl

/-- The skip whose condition is decided by an equality. -/
theorem skipIf_beq_pc {α : Type} [BEq α] [LawfulBEq α] [DecidableEq α] (a b : α) (s : State) :
    (skipIf (a == b) s).pc = if a = b then s.pc + 2#16 else s.pc := by
  simp only [skipIf_pc, beq_iff_eq]

theorem skipIf_bne_pc {α : Type} [BEq α] [LawfulBEq α] [DecidableEq α] (a b : α) (s : State) :
    (skipIf (a != b) s).pc = if a = b then s.pc else s.pc + 2#16 := by
  simp only [skipIf_pc, bne_iff_ne, ite_not]

section skips
variable (s : State) (x y : RegIdx) (nn : Byte)

theorem exec_seImm : exec (.seImm x nn) s = .next (skipIf (s.readV x == nn) s) := rfl

theorem exec_sneImm : exec (.sneImm x nn) s = .next (skipIf (s.readV x != nn) s) := rfl

theorem exec_seReg : exec (.seReg x y) s = .next (skipIf (s.readV x == s.readV y) s) := rfl

theorem exec_sneReg : exec (.sneReg x y) s = .next (skipIf (s.readV x != s.readV y) s) := rfl

theorem exec_jpV0 (nnn : Addr12) : exec (.jpV0 nnn) s = .next (s.setPc (jumpTarget nnn s)) := rfl

end skips

/-- Settles O25, by the skip's condition and frame. -/
theorem immediateSkips : Obligations.ImmediateSkips := fun s x nn =>
  ⟨⟨_, exec_seImm s x nn, skipIf_beq_pc _ _ s, onlyChanges_skipIf _ s⟩,
    ⟨_, exec_sneImm s x nn, skipIf_bne_pc _ _ s, onlyChanges_skipIf _ s⟩⟩

/-- Settles O26, by the skip's condition and frame. -/
theorem registerSkips : Obligations.RegisterSkips := by
  refine fun s x y => ⟨⟨_, exec_seReg s x y, skipIf_beq_pc _ _ s, onlyChanges_skipIf _ s, ?_⟩,
    ⟨_, exec_sneReg s x y, skipIf_bne_pc _ _ s, onlyChanges_skipIf _ s, ?_⟩⟩
  · rintro rfl; rw [skipIf_beq_pc, if_pos rfl]
  · rintro rfl; rw [skipIf_bne_pc, if_pos rfl]

/-- Settles O27, by the target as a number. -/
theorem jumpV0Target : Obligations.JumpV0Target := by
  refine fun s nnn => ⟨_, exec_jpV0 s nnn, s.onlyChanges_setPc _, fun h => ?_, fun h => ?_⟩
  · rw [State.setPc_pc, jumpTarget_toNat, if_pos h]
  · rw [State.setPc_pc, jumpTarget_toNat, if_neg (by simp [h])]

section keys
variable {s : State} {k : Byte}

/-- The key a byte names, for an index in range and for every index under MaskLow4 (R286). -/
theorem readKey_of_named (h : k ≤ 0x0F#8 ∨ s.params.keyIndexOor = .maskLow4) :
    readKey k s = .ok (s.keyDown (k.setWidth 4), s) := by
  unfold readKey
  split_ifs with hk
  · rfl
  · simp only [h.resolve_left hk]

theorem skipIfKey_of_named (h : k ≤ 0x0F#8 ∨ s.params.keyIndexOor = .maskLow4) (down : Bool) :
    skipIfKey down k s = .next (skipIf (s.keyDown (k.setWidth 4) == down) s) := by
  simp only [skipIfKey, readKey_of_named h]

/-- Above 0xF under NotPressed the key counts as up (R286). -/
theorem skipIfKey_of_notPressed (hk : 0x0F#8 < k) (h : s.params.keyIndexOor = .notPressed) (down : Bool) :
    skipIfKey down k s = .next (skipIf (false == down) s) := by
  simp only [skipIfKey, readKey, if_neg (BitVec.not_le.mpr hk), h]

/-- Above 0xF under Refuse the model refuses (R286). -/
theorem skipIfKey_of_refuse (hk : 0x0F#8 < k) (h : s.params.keyIndexOor = .refuse) (down : Bool) :
    skipIfKey down k s = .refused (.keyIndexOutOfRange k) := by
  simp only [skipIfKey, readKey, if_neg (BitVec.not_le.mpr hk), h]

/-- Above 0xF under the model's free value, the answer is free and one free value is taken. -/
theorem skipIfKey_of_free (hk : 0x0F#8 < k) (h : s.params.keyIndexOor = .free) (down : Bool) :
    skipIfKey down k s = .next (skipIf (Config.keyOutOfRange s.freeCount == down) s.bumpFree) := by
  simp only [skipIfKey, readKey, if_neg (BitVec.not_le.mpr hk), h]

/-- What the model's free value leaves: `pc` skipped or not, and one free value taken. -/
theorem skipIfKey_free_answer (hk : 0x0F#8 < k) (h : s.params.keyIndexOor = .free) (down : Bool) :
    ∃ t, skipIfKey down k s = .next t ∧ (t.pc = s.pc ∨ t.pc = s.pc + 2#16) ∧ OnlyChanges [.pc, .freeCount] s t ∧
      t.freeCount = s.freeCount + 1 := by
  have hframe := onlyChanges_skipIf (Config.keyOutOfRange s.freeCount == down) s.bumpFree
  refine ⟨_, skipIfKey_of_free hk h down, ?_, (s.onlyChanges_bumpFree.trans hframe).mono (by decide),
    hframe .freeCount (by decide)⟩
  rw [skipIf_pc]
  split_ifs
  · exact .inr rfl
  · exact .inl rfl

end keys

/-- Settles O46, parameter value by parameter value. -/
theorem keySkips : Obligations.KeySkips := by
  refine fun s x => ⟨fun h => ?named, fun hk h => ?notPressed, fun hk h => ?refuse, fun hk h i hi => ?free⟩
  case named =>
    refine ⟨⟨_, skipIfKey_of_named h true, ?_, onlyChanges_skipIf _ s⟩,
      ⟨_, skipIfKey_of_named h false, ?_, onlyChanges_skipIf _ s⟩⟩ <;>
      cases s.keyDown ((s.readV x).setWidth 4) <;> rfl
  case notPressed =>
    exact ⟨skipIfKey_of_notPressed hk h true, _, skipIfKey_of_notPressed hk h false, rfl, s.onlyChanges_advance⟩
  case refuse => exact ⟨skipIfKey_of_refuse hk h true, skipIfKey_of_refuse hk h false⟩
  case free =>
    rcases List.mem_pair.mp hi with rfl | rfl
    · exact skipIfKey_free_answer hk h true
    · exact skipIfKey_free_answer hk h false

/-- An advance and then another is an advance by 4 (R160). -/
theorem advance_advance_pc (s : State) : s.advance.advance.pc = s.pc + 4#16 := by
  rw [State.advance_pc, State.advance_pc, BitVec.add_assoc]; rfl

/-- A skip that is taken in a step leaves `fa + 4` (R160). -/
theorem skip_taken {s : State} {o : Host.Outcome State Fault Refusal} {c : Bool} (ho : o = .next (skipIf c s.advance))
    (hc : c = true) : ∃ t, o = .next t ∧ t.pc = s.pc + 4#16 :=
  ⟨_, ho, by rw [hc]; exact advance_advance_pc s⟩

/-- A register that holds a key's index names that key. -/
theorem keyDown_of_toNat_eq {k : Byte} {n : Nibble} (h : k.toNat = n.toNat) (s : State) :
    k ≤ 0x0F#8 ∧ s.keyDown (k.setWidth 4) = s.keyDown n := by
  have hn := n.isLt
  have hk : k.setWidth 4 = n := BitVec.eq_of_toNat_eq (by rw [BitVec.toNat_setWidth]; omega)
  exact ⟨by rw [BitVec.le_def, h]; exact Nat.le_of_lt_succ hn, by rw [hk]⟩

/-- Settles O28: each step is the execute phase on the advanced state. -/
theorem advanceThenOverwrite : Obligations.AdvanceThenOverwrite := by
  intro s w hs hf
  refine ⟨fun nnn hd hroom => ?call, fun x nn hd heq => ?seImm, fun x nn hd hne => ?sneImm, fun x y hd heq => ?seReg,
    fun x y hd hne => ?sneReg, fun x hd k hk hdown => ?skp, fun x hd k hk hup => ?sknp, fun nnn hd => ?jp,
    fun nnn hd => ?jpV0, fun a rest hd hstack => ?ret⟩ <;> rw [step_of_decode hs hf hd]
  case call => exact ⟨_, exec_call_of_room (s := s.advance) hroom nnn, rfl, zext16_addr_toNat nnn⟩
  case seImm => exact skip_taken (exec_seImm s.advance x nn) (beq_iff_eq.mpr heq)
  case sneImm => exact skip_taken (exec_sneImm s.advance x nn) (bne_iff_ne.mpr hne)
  case seReg => exact skip_taken (exec_seReg s.advance x y) (beq_iff_eq.mpr heq)
  case sneReg => exact skip_taken (exec_sneReg s.advance x y) (bne_iff_ne.mpr hne)
  case skp =>
    obtain ⟨hle, hkey⟩ := keyDown_of_toNat_eq hk s.advance
    exact skip_taken (skipIfKey_of_named (.inl hle) true) (beq_iff_eq.mpr (hkey.trans hdown))
  case sknp =>
    obtain ⟨hle, hkey⟩ := keyDown_of_toNat_eq hk s.advance
    exact skip_taken (skipIfKey_of_named (.inl hle) false) (beq_iff_eq.mpr (hkey.trans hup))
  case jp =>
    have htarget : (zext16 nnn).toNat = nnn.toNat := zext16_addr_toNat nnn
    exact ⟨_, exec_jp nnn s.advance, htarget, fun heq => BitVec.eq_of_toNat_eq (htarget.trans heq)⟩
  case jpV0 => exact ⟨_, exec_jpV0 s.advance nnn, jumpTarget_toNat nnn s.advance⟩
  case ret => exact ⟨_, exec_ret_of_cons (s := s.advance) hstack, rfl⟩

theorem exec_ldVxK (x : RegIdx) (s : State) : exec (.ldVxK x) s = .next (s.setWait (some x)).waitPc := rfl

theorem State.waitPc_pc (s : State) :
    s.waitPc.pc = if s.params.keywaitPc = .atInstruction then s.pc - 2#16 else s.pc := by
  unfold State.waitPc
  cases s.params.keywaitPc <;> rfl

/-- Settles O47: the wait is set, then `pc` placed as the parameter says. -/
theorem keyWaitBegins : Obligations.KeyWaitBegins := by
  intro s x
  have hframe := State.onlyChanges_waitPc (s.setWait (some x))
  have hwait : (s.setWait (some x)).waitPc.wait = some x := hframe .wait (by decide)
  have hrun : (s.setWait (some x)).waitPc.run = s.run := hframe .run (by decide)
  refine ⟨_, exec_ldVxK x s, hwait, fun h => ?_, fun h => ?_, (s.onlyChanges_setWait _).trans hframe, fun h => ?_⟩
  · rw [State.waitPc_pc]; exact if_neg (by simp [h])
  · rw [State.waitPc_pc]; exact if_pos h
  · exact State.status_of_wait (hrun.trans h) hwait

theorem State.resumePc_pc (s : State) :
    s.resumePc.pc = if s.params.keywaitPc = .atInstruction then s.pc + 2#16 else s.pc := by
  unfold State.resumePc
  cases s.params.keywaitPc <;> rfl

theorem notifyKey_of_waiting {s : State} {x : RegIdx} (hr : s.run = .running) (hw : s.wait = some x) (k : Nibble) :
    notifyKey k s = ((s.writeV x (k.setWidth 8)).setWait none).resumePc := by
  simp only [notifyKey, hr, hw]

/-- A key index written to a register keeps its number (R289). -/
theorem setWidth8_toNat (k : Nibble) : (k.setWidth 8).toNat = k.toNat := by
  have := k.isLt
  rw [BitVec.toNat_setWidth]; omega

/-- The host's key vector as the core reads it (R290). -/
theorem keyDown_setKeys (ks : Vector Bool 16) (s : State) (k : Nibble) :
    (setKeys ks s).keyDown k = ks.get (Fin.ofNat 16 k.toNat) := by
  simp [State.keyDown, setKeys, Vector.get_eq_getElem, Nat.mod_eq_of_lt k.isLt]

/-- Settles O48, by the notification on a waiting core, on any other, and the key vector. -/
theorem keyTransactions : Obligations.KeyTransactions := by
  refine ⟨fun s x k hr hw => ?release, fun s k h => ?ignored, fun s ks => ?keys⟩
  case release =>
    have hframe := State.onlyChanges_resumePc ((s.writeV x (k.setWidth 8)).setWait none)
    have hreg (r : RegIdx) : (notifyKey k s).readV r = (s.writeV x (k.setWidth 8)).readV r := by
      rw [notifyKey_of_waiting hr hw]
      exact State.readV_congr (hframe .v (by decide)) r
    refine ⟨_, rfl, ?_, ?_, ?_, fun r hr' => ?_, notifyKey_onlyChanges k s⟩
    · rw [hreg, State.readV_writeV_self, setWidth8_toNat]
    · rw [notifyKey_of_waiting hr hw]; exact hframe .wait (by decide)
    · rw [notifyKey_of_waiting hr hw, State.resumePc_pc]; rfl
    · rw [hreg]; exact s.onlyRegs_writeV x _ r hr'
  case ignored => exact congrArg (fun u => Host.Outcome.next (Response.nothing, u)) (notifyKey_of_not_waiting h k)
  case keys => exact ⟨_, rfl, keyDown_setKeys ks s, s.onlyChanges_setKeys ks⟩

end Sys2Proof.Machine
end

section
/-! Arithmetic and logic (42_arith_logic.md R200-R213), the index-register loads (43_memory_index.md R251-R253) and the timer
instructions (45_timers.md R320-R323): results as numbers, and the registers each leaves alone. -/

namespace Sys2Proof.Machine

section registers
variable (s : State) (x y : RegIdx) (nn : Byte)

theorem exec_ldImm : exec (.ldImm x nn) s = .next (s.writeV x nn) := rfl
theorem exec_ldReg : exec (.ldReg x y) s = .next (s.writeV x (s.readV y)) := rfl
theorem exec_addImm : exec (.addImm x nn) s = .next (s.writeV x (s.readV x + nn)) := rfl
theorem exec_orReg : exec (.orReg x y) s = .next (s.writeLogic x (s.readV x ||| s.readV y)) := rfl
theorem exec_andReg : exec (.andReg x y) s = .next (s.writeLogic x (s.readV x &&& s.readV y)) := rfl
theorem exec_xorReg : exec (.xorReg x y) s = .next (s.writeLogic x (s.readV x ^^^ s.readV y)) := rfl
theorem exec_addReg : exec (.addReg x y) s = .next (s.writeResult x (addCarry (s.readV x) (s.readV y))) := rfl
theorem exec_sub : exec (.sub x y) s = .next (s.writeResult x (subNoBorrow (s.readV x) (s.readV y))) := rfl
theorem exec_subn : exec (.subn x y) s = .next (s.writeResult x (subNoBorrow (s.readV y) (s.readV x))) := rfl
theorem exec_shr : exec (.shr x y) s = .next (s.writeResult x (shiftRight (s.readV x))) := rfl
theorem exec_shl : exec (.shl x y) s = .next (s.writeResult x (shiftLeft (s.readV x))) := rfl
theorem exec_rnd : exec (.rnd x nn) s = .next (rndWith (Config.rngDraw s.freeCount) x nn s) := rfl
theorem exec_ldVxDt : exec (.ldVxDt x) s = .next (s.writeV x s.dt) := rfl
theorem exec_ldDtVx : exec (.ldDtVx x) s = .next (s.setDt (s.readV x)) := rfl
theorem exec_ldStVx : exec (.ldStVx x) s = .next (s.setSt (s.readV x)) := rfl
theorem exec_ldI (nnn : Addr12) : exec (.ldI nnn) s = .next (s.setI (zext16 nnn)) := rfl
theorem exec_addI : exec (.addI x) s = .next (s.setI ((s.i + zext16 (s.readV x)) &&& 0x0FFF#16)) := rfl
theorem exec_ldF : exec (.ldF x) s = .next (s.setI (glyphAddr (s.readV x))) := rfl

end registers

/-- Settles O30, by the register write. -/
theorem loadsAndAddImmediate : Obligations.LoadsAndAddImmediate := fun s x y nn =>
  ⟨⟨_, exec_ldImm s x nn, s.readV_writeV_self x _, s.onlyRegs_writeV x _, s.onlyChanges_writeV x _⟩,
    ⟨_, exec_ldReg s x y, s.readV_writeV_self x _, s.onlyRegs_writeV x _, s.onlyChanges_writeV x _⟩,
    ⟨_, exec_addImm s x nn, by rw [State.readV_writeV_self, BitVec.toNat_add], s.onlyRegs_writeV x _,
      s.onlyChanges_writeV x _⟩⟩

section results
variable (s : State) (x : RegIdx) (r : Byte × Bool)

theorem State.onlyRegs_writeResult : OnlyRegs [x, vf] s (s.writeResult x r) := by
  intro y hy
  simp only [List.mem_cons, List.not_mem_nil, or_false, not_or] at hy
  rw [State.readV_writeResult, if_neg hy.2, if_neg (Ne.symm hy.1)]

/-- What the flag operation leaves, for a result and a flag of known values: the flag wins when x = F (R200). -/
theorem State.writeResult_spec {r : Byte × Bool} {n : Nat} {flag : Byte} (hr : r.1.toNat = n) (hf : flagByte r.2 = flag) :
    (x ≠ vf → ((s.writeResult x r).readV x).toNat = n) ∧ (s.writeResult x r).readV vf = flag ∧
      OnlyRegs [x, vf] s (s.writeResult x r) ∧ OnlyChanges [.v] s (s.writeResult x r) := by
  refine ⟨fun hx => ?_, ?_, s.onlyRegs_writeResult x r, s.onlyChanges_writeResult x r⟩
  · rw [State.readV_writeResult, if_neg hx, if_pos rfl, hr]
  · rw [State.readV_writeResult, if_pos rfl, hf]

end results

/-- The flag byte of a decided condition (R201). -/
theorem flagByte_decide (p : Prop) [Decidable p] : flagByte (decide p) = if p then 1#8 else 0#8 := by
  by_cases h : p <;> simp [flagByte, h]

theorem flagByte_toNat (c : Bool) : (flagByte c).toNat = c.toNat := by
  cases c <;> rfl

section arithmetic
variable (a b : Byte)

theorem sum9_toNat : (sum9 a b).toNat = a.toNat + b.toNat := by
  have := a.isLt
  have := b.isLt
  simp only [sum9, BitVec.toNat_add, BitVec.toNat_setWidth]
  omega

/-- The sum modulo 256 (R205). -/
theorem addCarry_fst_toNat : (addCarry a b).1.toNat = (a.toNat + b.toNat) % 256 := by
  rw [addCarry, BitVec.toNat_setWidth, sum9_toNat]

/-- The carry out (R205). -/
theorem addCarry_snd : flagByte (addCarry a b).2 = if 255 < a.toNat + b.toNat then 1#8 else 0#8 := by
  rw [addCarry, flagByte_decide]
  simp only [BitVec.lt_def, sum9_toNat, BitVec.toNat_ofNat, Nat.reducePow, Nat.reduceMod]

/-- The difference modulo 256 (R206, R207). -/
theorem subNoBorrow_fst_toNat : (subNoBorrow a b).1.toNat = (256 + a.toNat - b.toNat) % 256 := by
  have := a.isLt
  have := b.isLt
  rw [subNoBorrow, BitVec.toNat_sub]
  omega

/-- NOT borrow (R206, R207). -/
theorem subNoBorrow_snd : flagByte (subNoBorrow a b).2 = if b.toNat ≤ a.toNat then 1#8 else 0#8 := by
  rw [subNoBorrow, flagByte_decide]
  simp only [BitVec.le_def]

theorem shiftRight_fst_toNat : (shiftRight a).1.toNat = a.toNat / 2 := by
  rw [shiftRight, BitVec.toNat_ushiftRight, Nat.shiftRight_eq_div_pow, pow_one]

/-- The bit shifted out to the right (R211). -/
theorem shiftRight_snd_toNat : (flagByte (shiftRight a).2).toNat = a.toNat % 2 := by
  rw [flagByte_toNat, shiftRight, BitVec.getLsbD, Nat.toNat_testBit, pow_zero, Nat.div_one]

theorem shiftLeft_fst_toNat : (shiftLeft a).1.toNat = 2 * a.toNat % 256 := by
  rw [shiftLeft, BitVec.toNat_shiftLeft, Nat.shiftLeft_eq, pow_one, Nat.mul_comm]

/-- The bit shifted out to the left (R212). -/
theorem shiftLeft_snd_toNat : (flagByte (shiftLeft a).2).toNat = a.toNat / 128 := by
  have := a.isLt
  rw [flagByte_toNat, shiftLeft, BitVec.getLsbD, Nat.toNat_testBit]
  omega

end arithmetic

section decodeAlu
variable (x y : RegIdx)

theorem decode_addReg : decode (wordXYN 0x8#4 x y 0x4#4) = .ok (.addReg x y) := decode_encode (i := .addReg x y) rfl
theorem decode_sub : decode (wordXYN 0x8#4 x y 0x5#4) = .ok (.sub x y) := decode_encode (i := .sub x y) rfl
theorem decode_shr : decode (wordXYN 0x8#4 x y 0x6#4) = .ok (.shr x y) := decode_encode (i := .shr x y) rfl
theorem decode_subn : decode (wordXYN 0x8#4 x y 0x7#4) = .ok (.subn x y) := decode_encode (i := .subn x y) rfl
theorem decode_shl : decode (wordXYN 0x8#4 x y 0xE#4) = .ok (.shl x y) := decode_encode (i := .shl x y) rfl

end decodeAlu

/-- Settles O31, by the sum and its carry. -/
theorem addSetsCarry : Obligations.AddSetsCarry := fun x y => ⟨decode_addReg x y, fun s =>
  ⟨_, exec_addReg s x y, s.writeResult_spec x (addCarry_fst_toNat _ _) (addCarry_snd _ _)⟩⟩

/-- Settles O32, by the difference and its borrow. -/
theorem subSetsNoBorrow : Obligations.SubSetsNoBorrow := fun x y => ⟨decode_sub x y, fun s =>
  ⟨_, exec_sub s x y, s.writeResult_spec x (subNoBorrow_fst_toNat _ _) (subNoBorrow_snd _ _)⟩⟩

/-- Settles O33, by the difference the other way round. -/
theorem subnSetsNoBorrow : Obligations.SubnSetsNoBorrow := fun x y => ⟨decode_subn x y, fun s =>
  ⟨_, exec_subn s x y, s.writeResult_spec x (subNoBorrow_fst_toNat _ _) (subNoBorrow_snd _ _)⟩⟩

/-- Settles O35, by the shifted value and the bit shifted out. -/
theorem shiftsUseVxAndTheShiftedOutBit : Obligations.ShiftsUseVxAndTheShiftedOutBit := by
  refine fun x y => ⟨decode_shr x y, decode_shl x y, fun s => ⟨?right, ?left⟩⟩
  case right =>
    obtain ⟨hres, hflag, hframe⟩ := s.writeResult_spec x (shiftRight_fst_toNat (s.readV x)) rfl
    exact ⟨_, exec_shr s x y, hres, by rw [hflag, shiftRight_snd_toNat], hframe⟩
  case left =>
    obtain ⟨hres, hflag, hframe⟩ := s.writeResult_spec x (shiftLeft_fst_toNat (s.readV x)) rfl
    exact ⟨_, exec_shl s x y, hres, by rw [hflag, shiftLeft_snd_toNat], hframe⟩

section logic
variable {s : State} {x : RegIdx}

theorem State.readV_writeLogic_self (h : s.params.logicVf = .keep ∨ x ≠ vf) (r : Byte) :
    (s.writeLogic x r).readV x = r := by
  have hno : ¬ (s.params.logicVf = .zero ∧ x = vf) := by
    rcases h with hkeep | hne
    · simp [hkeep]
    · simp [hne]
  rw [State.readV_writeLogic, if_neg hno, if_pos rfl]

theorem State.onlyRegs_writeLogic_of_keep (h : s.params.logicVf = .keep) (r : Byte) :
    OnlyRegs [x] s (s.writeLogic x r) := by
  intro y hy
  have hne : x ≠ y := Ne.symm (by simpa using hy)
  rw [State.readV_writeLogic, if_neg (by simp [h]), if_neg hne]

theorem State.readV_writeLogic_vf (h : s.params.logicVf = .zero) (r : Byte) : (s.writeLogic x r).readV vf = 0#8 := by
  rw [State.readV_writeLogic, if_pos ⟨h, rfl⟩]

theorem State.onlyRegs_writeLogic (r : Byte) : OnlyRegs [x, vf] s (s.writeLogic x r) := by
  intro y hy
  simp only [List.mem_cons, List.not_mem_nil, or_false, not_or] at hy
  rw [State.readV_writeLogic, if_neg fun hvf => hy.2 hvf.2, if_neg (Ne.symm hy.1)]

end logic

/-- Settles O34: the three differ in the bit operation alone. -/
theorem logicFollowsLogicVf : Obligations.LogicFollowsLogicVf := by
  intro s x y post
  have hpost (f : Bool → Bool → Bool) (r : Byte)
      (hr : ∀ k, r.getLsbD k = f ((s.readV x).getLsbD k) ((s.readV y).getLsbD k)) : post f (s.writeLogic x r) := by
    refine ⟨fun h k _ => ?_, fun h => State.onlyRegs_writeLogic_of_keep h r,
      fun h => ⟨State.readV_writeLogic_vf h r, State.onlyRegs_writeLogic r⟩, s.onlyChanges_writeLogic x r⟩
    rw [State.readV_writeLogic_self h, hr]
  exact ⟨⟨_, exec_orReg s x y, hpost or _ fun _ => BitVec.getLsbD_or⟩,
    ⟨_, exec_andReg s x y, hpost and _ fun _ => BitVec.getLsbD_and⟩,
    ⟨_, exec_xorReg s x y, hpost xor _ fun _ => BitVec.getLsbD_xor⟩⟩

/-- A masked byte has no bit outside the mask. -/
theorem and_and_not (a m : Byte) : a &&& m &&& ~~~m = 0#8 := by
  rw [BitVec.and_assoc, BitVec.and_not_self]; exact BitVec.and_zero

/-- Settles O36, by the register write of the masked draw. -/
theorem rndMasksAFreeDraw : Obligations.RndMasksAFreeDraw := by
  intro s x nn
  have hx : (rndWith (Config.rngDraw s.freeCount) x nn s).readV x = Config.rngDraw s.freeCount &&& nn :=
    s.readV_writeV_self x _
  refine ⟨_, exec_rnd s x nn, hx, ?_, s.onlyRegs_writeV x _, rndWith_onlyChanges _ x nn s, rfl⟩
  rw [hx, and_and_not]

/-- Settles O37, by the addresses as numbers. -/
theorem indexRegisterLoads : Obligations.IndexRegisterLoads := by
  refine fun s nnn x => ⟨⟨_, exec_ldI s nnn, zext16_addr_toNat nnn, s.onlyChanges_setI _⟩,
    ⟨_, exec_addI s x, ?_, s.onlyChanges_setI _⟩, ⟨_, exec_ldF s x, glyphAddr_toNat _, s.onlyChanges_setI _⟩⟩
  rw [State.setI_i, and_mask12_toNat, BitVec.toNat_add, zext16_byte_toNat]
  omega

/-- Settles O49, by the three moves. -/
theorem timerLoads : Obligations.TimerLoads := fun s x =>
  ⟨⟨_, exec_ldDtVx s x, rfl, s.onlyChanges_setDt _⟩, ⟨_, exec_ldStVx s x, rfl, s.onlyChanges_setSt _⟩,
    ⟨_, exec_ldVxDt s x, s.readV_writeV_self x _, s.onlyRegs_writeV x _, s.onlyChanges_writeV x _⟩⟩

theorem countDown_toNat (b : Byte) : (countDown b).toNat = b.toNat - 1 := by
  unfold countDown
  split_ifs with h
  · rw [h]; rfl
  · bv_omega

/-- Settles O50, by the countdown of each timer. -/
theorem timerTickCountsDown : Obligations.TimerTickCountsDown := fun s =>
  ⟨_, rfl, countDown_toNat s.dt, countDown_toNat s.st, timerTick_onlyChanges s⟩

end Sys2Proof.Machine
end

section
/-! The multi-byte accesses at `I` (43_memory_index.md R250, R254-R256), the canonical form of memory (log entry 13), and the
fetch of a stored word (20_memory.md R65, R66). -/

namespace Sys2Proof.Machine

/-- LD B where its three bytes fit (R254). -/
theorem exec_ldB_of_fits {s : State} (h : s.base + 3 ≤ 4096) (x : RegIdx) :
    exec (.ldB x) s = .next (s.setMem (s.mem.writeList s.base (decimalDigits (s.readV x)))) := by
  simp only [exec, execLdB, checkRange_ok h, Except.map, complete_ok]

/-- LD [I], Vx where its bytes fit (R255). -/
theorem exec_ldMemVx_of_fits {s : State} {x : RegIdx} (h : s.base + x.toNat + 1 ≤ 4096) :
    exec (.ldMemVx x) s = .next ((s.setMem (s.mem.writeList s.base (s.regsThrough x))).incrementI x) := by
  simp only [exec, execLdMemVx, checkRange_ok (count := x.toNat + 1) h, Except.map, complete_ok]

/-- LD Vx, [I] where its bytes fit (R256). -/
theorem exec_ldVxMem_of_fits {s : State} {x : RegIdx} (h : s.base + x.toNat + 1 ≤ 4096) :
    exec (.ldVxMem x) s = .next ((s.setV (loadRegs s.mem s.base (x.toNat + 1) s.v)).incrementI x) := by
  simp only [exec, execLdVxMem, checkRange_ok (count := x.toNat + 1) h, Except.map, complete_ok]

/-- An execute rule whose range check fails halts with OutOfBounds(0x1000) and changes `run` alone (R250). -/
theorem complete_checkRange_error {s : State} {n : Nat} (hi : s.i.toNat ≤ 0xFFF) (h : 4096 < s.base + n)
    (f : Unit → State) : ∃ t, complete s ((checkRange s.base n).map f) = .next t ∧
      t.run = .halted (.outOfBounds 0x1000#16) ∧ OnlyChanges [.run] s t := by
  have hbase : s.base ≤ 4096 := Nat.le_trans hi (by decide)
  rw [checkRange_error hbase h]
  exact ⟨_, rfl, rfl, onlyChanges_raise _ s⟩

/-- The `k`-th byte written at ascending addresses reads back. -/
theorem Memory.read_writeList_getD {m : Memory} (hm : m.wf = true) {a k : Nat} {vs : List Byte}
    (h : a + vs.length ≤ 4096) (hk : k < vs.length) : (m.writeList a vs).read (a + k) = vs.getD k 0#8 := by
  rw [Memory.read_writeList hm h, if_pos ⟨by omega, by omega⟩, Nat.add_sub_cancel_left]

/-- The decimal digits of a byte, one by one (R254). -/
theorem decimalDigits_getD_toNat (v : Byte) : ((decimalDigits v).getD 0 0#8).toNat = v.toNat / 100 ∧
    ((decimalDigits v).getD 1 0#8).toNat = v.toNat / 10 % 10 ∧ ((decimalDigits v).getD 2 0#8).toNat = v.toNat % 10 := by
  have h := decimalDigits_toNat v
  simp only [decimalDigits, List.map_cons, List.map_nil, List.cons.injEq, and_true] at h
  exact h

/-- Settles O38: the digits read back in order, or the range check fails. -/
theorem ldBStoresDecimalDigits : Obligations.LdBStoresDecimalDigits := by
  refine fun s x hwf hi => ⟨fun hfit => ?_, fun hover => complete_checkRange_error hi hover _⟩
  obtain ⟨hhundreds, htens, hunits⟩ := decimalDigits_getD_toNat (s.readV x)
  have hread (k : Nat) (hk : k < 3) : (s.mem.writeList s.base (decimalDigits (s.readV x))).read (s.base + k) =
      (decimalDigits (s.readV x)).getD k 0#8 := Memory.read_writeList_getD hwf hfit hk
  have hbytes := State.onlyBytes_writeList (vs := decimalDigits (s.readV x)) hwf hfit
  refine ⟨_, exec_ldB_of_fits hfit x, ?_, ?_, ?_, hbytes, s.onlyChanges_setMem _⟩
  · rw [← hhundreds, ← hread 0 (by decide)]; rfl
  · rw [← htens, ← hread 1 (by decide)]; rfl
  · rw [← hunits, ← hread 2 (by decide)]; rfl

section increment
variable {s : State} {x : RegIdx}

theorem State.incrementI_i_of_none (h : s.params.memIIncrement = .none) : (s.incrementI x).i = s.i := by
  simp only [State.incrementI, h]

/-- `I` moved past the bytes, modulo 4096 (R255, R256). -/
theorem State.incrementI_i_of_xPlus1 (h : s.params.memIIncrement = .xPlus1) :
    (s.incrementI x).i.toNat = (s.i.toNat + x.toNat + 1) % 4096 := by
  have hx := x.isLt
  simp only [State.incrementI, h]
  rw [State.setI_i, and_mask12_toNat, BitVec.toNat_add, BitVec.toNat_add, zext16_nibble_toNat, BitVec.toNat_ofNat]
  omega

/-- Moving `I` leaves memory as it is, to the list of its cells. -/
@[simp] theorem State.incrementI_mem : (s.incrementI x).mem = s.mem := by
  unfold State.incrementI; cases s.params.memIIncrement <;> rfl

@[simp] theorem State.readV_incrementI (r : RegIdx) : (s.incrementI x).readV r = s.readV r :=
  State.readV_congr (s.onlyChanges_incrementI x .v (by decide)) r

end increment

/-- A stored register reads back at its address (R255). -/
theorem Memory.read_writeList_regsThrough {s : State} {x r : RegIdx} (hwf : s.mem.wf = true)
    (hfit : s.base + x.toNat + 1 ≤ 4096) (hr : r ≤ x) :
    (s.mem.writeList s.base (s.regsThrough x)).read (s.base + r.toNat) = s.readV r := by
  have hlen := s.regsThrough_length x
  have hle : r.toNat ≤ x.toNat := hr
  rw [Memory.read_writeList_getD hwf (by omega) (by omega), s.regsThrough_getD hle]

/-- Settles O39: each stored register reads back at its address, or the range check fails. -/
theorem storeRegistersAtI : Obligations.StoreRegistersAtI := by
  refine fun s x hwf hi => ⟨fun hfit => ?_, fun hover => complete_checkRange_error hi hover _⟩
  have hlen := s.regsThrough_length x
  refine ⟨_, exec_ldMemVx_of_fits hfit, fun r hr => ?read, ?bytes, fun h => State.incrementI_i_of_none (s := s.setMem _) h,
    fun h => State.incrementI_i_of_xPlus1 (s := s.setMem _) h, (s.onlyChanges_setMem _).trans (State.onlyChanges_incrementI _ x)⟩
  case read => rw [State.incrementI_mem]; exact Memory.read_writeList_regsThrough hwf hfit hr
  case bytes =>
    intro a ha
    rw [State.incrementI_mem]
    exact State.onlyBytes_writeList hwf (by omega) a (by omega)

/-- What the loaded registers read as (R256). -/
theorem readV_loadRegs (s : State) (x r : RegIdx) :
    (s.setV (loadRegs s.mem s.base (x.toNat + 1) s.v)).readV r =
      if r ≤ x then s.mem.read (s.base + r.toNat) else s.readV r := by
  have hle : r.toNat < x.toNat + 1 ↔ r ≤ x := Nat.lt_succ_iff
  simp only [State.readV, State.setV_v, loadRegs_getElem _ _ _ _ r.isLt, hle]

/-- Settles O40: each loaded register holds its byte, or the range check fails. -/
theorem loadRegistersFromI : Obligations.LoadRegistersFromI := by
  refine fun s x hi => ⟨fun hfit => ?_, fun hover => complete_checkRange_error hi hover _⟩
  refine ⟨_, exec_ldVxMem_of_fits hfit, fun r => ?_, fun h => State.incrementI_i_of_none (s := s.setV _) h,
    fun h => State.incrementI_i_of_xPlus1 (s := s.setV _) h, (s.onlyChanges_setV _).trans (State.onlyChanges_incrementI _ x)⟩
  rw [State.readV_incrementI, readV_loadRegs]

/-- Settles O41: the load reads at each register's address what the store left there. -/
theorem loadAfterStoreRestoresRegisters : Obligations.LoadAfterStoreRestoresRegisters := by
  intro s t u x hwf hfit hstore hmem hi
  have hbase : u.base = s.base := congrArg BitVec.toNat hi
  rw [exec_ldMemVx_of_fits hfit] at hstore
  cases hstore
  rw [State.incrementI_mem, State.setMem_mem] at hmem
  refine ⟨_, exec_ldVxMem_of_fits (by rw [hbase]; exact hfit), fun r => ?_⟩
  rw [State.readV_incrementI, readV_loadRegs, hmem, hbase]
  split_ifs with hr
  · exact Memory.read_writeList_regsThrough hwf hfit hr
  · rfl

/-- The first cell of a canonical list reads its byte, which is not the reset contents. -/
theorem Memory.read_head_ne {a lo : Nat} {v : Byte} {m : Memory} (h : Memory.wfFrom lo ((a, v) :: m) = true) :
    Memory.read ((a, v) :: m) a ≠ Memory.unlisted a := by
  obtain ⟨-, -, hv, -⟩ := Memory.wfFrom_cons.mp h
  simpa [Memory.read] using hv

/-- Lists that read the same have the same first address: the lower one would hold a cell that differs from the reset contents
in one list alone. -/
theorem Memory.head_le_of_read_eq {a b lo : Nat} {v w : Byte} {m n : Memory} (hm : Memory.wfFrom lo ((a, v) :: m) = true)
    (h : ∀ c, Memory.read ((a, v) :: m) c = Memory.read ((b, w) :: n) c) : b ≤ a := by
  by_contra hlt
  have hunlisted : Memory.read ((b, w) :: n) a = Memory.unlisted a := by
    simp [Memory.read, show ¬ a = b by omega, show a < b by omega]
  exact Memory.read_head_ne hm ((h a).trans hunlisted)

/-- The tails of lists with one first cell read the same. -/
theorem Memory.read_tail_eq {a : Nat} {v : Byte} {m n : Memory} (hm : Memory.wfFrom (a + 1) m = true)
    (hn : Memory.wfFrom (a + 1) n = true) (h : ∀ c, Memory.read ((a, v) :: m) c = Memory.read ((a, v) :: n) c) (c : Nat) :
    m.read c = n.read c := by
  by_cases hc : c < a + 1
  · rw [Memory.read_below hm hc, Memory.read_below hn hc]
  · simpa [Memory.read, show ¬ c = a by omega, show ¬ c < a by omega] using h c

/-- Two canonical lists that read the same are the same, cell by cell. -/
theorem Memory.eq_of_read_eq {m n : Memory} {lo : Nat} (hm : Memory.wfFrom lo m = true) (hn : Memory.wfFrom lo n = true)
    (h : ∀ c, m.read c = n.read c) : m = n := by
  induction m generalizing n lo with
  | nil =>
    cases n with
    | nil => rfl
    | cons d n => exact absurd (h d.1).symm (Memory.read_head_ne hn)
  | cons c m ih =>
    cases n with
    | nil => exact absurd (h c.1) (Memory.read_head_ne hm)
    | cons d n =>
      obtain ⟨a, v⟩ := c
      obtain ⟨b, w⟩ := d
      obtain rfl : a = b := Nat.le_antisymm (Memory.head_le_of_read_eq hn fun c => (h c).symm)
        (Memory.head_le_of_read_eq hm h)
      obtain rfl : v = w := by simpa [Memory.read] using h a
      obtain ⟨-, -, -, hm'⟩ := Memory.wfFrom_cons.mp hm
      obtain ⟨-, -, -, hn'⟩ := Memory.wfFrom_cons.mp hn
      rw [ih hm' hn' (Memory.read_tail_eq hm' hn' h)]

/-- Settles O53, by the uniqueness of the canonical form from address 0. -/
theorem equalReadsEqualMemory : Obligations.EqualReadsEqualMemory := fun _ _ => Memory.eq_of_read_eq

theorem placeFetchWord_ready (s : State) (w : Word) : (placeFetchWord s w).Ready := ⟨rfl, rfl⟩

theorem placeFetchWord_onlyChanges (s : State) (w : Word) : OnlyChanges [.mem, .run, .wait] s (placeFetchWord s w) :=
  ((s.onlyChanges_setMem _).trans (State.onlyChanges_setRun _ _)).trans (State.onlyChanges_setWait _ _)

/-- The fetch reads the stored word (R65, R66). -/
theorem fetch_placeFetchWord {s : State} (hwf : s.mem.wf = true) (hpc : s.pc.toNat ≤ 0xFFE) (w : Word) :
    fetch (placeFetchWord s w) = .ok w := by
  have hfit : s.pc.toNat + [highByte w, lowByte w].length ≤ 4096 := Nat.add_le_add_right hpc 2
  have hhi : (placeFetchWord s w).mem.read s.pc.toNat = highByte w :=
    Memory.read_writeList_getD (k := 0) hwf hfit Nat.zero_lt_two
  have hlo : (placeFetchWord s w).mem.read (s.pc.toNat + 1) = lowByte w :=
    Memory.read_writeList_getD hwf hfit Nat.one_lt_two
  have hfetch := fetch_ok (s := placeFetchWord s w) (Nat.lt_succ_of_le hpc)
  rwa [show (placeFetchWord s w).pc = s.pc from rfl, hhi, hlo, wordOfBytes_bytes] at hfetch

/-- Settles O54: the two bytes read back make the word, and the core is ready. -/
theorem storedWordIsFetched : Obligations.StoredWordIsFetched := by
  intro s w hwf hpc
  have hfetch := fetch_placeFetchWord hwf hpc w
  have hbytes : OnlyBytes s.pc.toNat 2 s (placeFetchWord s w) :=
    State.onlyBytes_writeList (vs := [highByte w, lowByte w]) hwf (Nat.add_le_add_right hpc 2)
  exact ⟨hfetch, fun i hd => step_of_decode (placeFetchWord_ready s w) hfetch hd, hbytes, placeFetchWord_onlyChanges s w⟩

end Sys2Proof.Machine
end

section
/-! The sprite engine in closed form (44_draw_input.md R281-R283): the loop over rows and bits is one XOR at every pixel, so a
second draw undoes the first, and DRW (R285) is that XOR with its collision. -/

namespace Sys2Proof.Machine

/-- The bit offset of a sprite at horizontal coordinate `x` that falls on display column `c`, modulo 64. -/
def colOffset (x : Byte) (c : Fin 64) : Nat := (c.val + 256 - x.toNat) % 64

/-- The sprite row of a sprite at vertical coordinate `y` that falls on display row `r`, modulo 32. -/
def rowOffset (y : Byte) (r : Fin 32) : Nat := (r.val + 256 - y.toNat) % 32

theorem eq_spriteCol_iff {x : Byte} {c : Fin 64} {k : Nat} (hk : k < 64) : c = spriteCol x k ↔ k = colOffset x c := by
  have := x.isLt
  simp only [Fin.ext_iff, spriteCol, Fin.ofNat, colOffset]
  omega

theorem eq_spriteRow_iff {y : Byte} {r : Fin 32} {k : Nat} (hk : k < 32) : r = spriteRow y k ↔ k = rowOffset y r := by
  have := y.isLt
  simp only [Fin.ext_iff, spriteRow, Fin.ofNat, rowOffset]
  omega

section engine
variable {edge : DrawEdge} {x y : Byte}

/-- The first `n` bits of a sprite row, at every pixel: the XOR of the bit that falls there. -/
theorem drawBits_pixel {r n : Nat} (hn : n ≤ 64) (row : Byte) (acc : Display × Bool) (r' : Fin 32) (c' : Fin 64) :
    (drawBits edge x y r row n acc).1.pixel r' c' = (acc.1.pixel r' c' ^^
      (decide (r' = spriteRow y r) && decide (colOffset x c' < n) && row.getLsbD (7 - colOffset x c') &&
        !clipped edge x y r (colOffset x c'))) := by
  induction n with
  | zero => simp [drawBits]
  | succ n ih =>
    have hcol : c' = spriteCol x n ↔ n = colOffset x c' := eq_spriteCol_iff hn
    rw [drawBits, drawBit_pixel, ih (by omega), Bool.xor_assoc]
    simp only [hcol]
    congr 1
    rcases Nat.lt_trichotomy n (colOffset x c') with hlt | rfl | hgt
    · simp [show ¬ n = colOffset x c' by omega, show ¬ colOffset x c' < n by omega, show ¬ colOffset x c' < n + 1 by omega]
    · simp [Bool.and_comm, Bool.and_left_comm, Bool.and_assoc]
    · simp [show ¬ n = colOffset x c' by omega, hgt, show colOffset x c' < n + 1 by omega]

/-- Sprite rows from row `r` on, at every pixel: the XOR of the bit of the row that falls there. -/
theorem drawRows_pixel {rows : List Byte} {r : Nat} (hlen : r + rows.length ≤ 32) (acc : Display × Bool) (r' : Fin 32)
    (c' : Fin 64) : (drawRows edge x y r rows acc).1.pixel r' c' = (acc.1.pixel r' c' ^^
      (decide (r ≤ rowOffset y r' ∧ rowOffset y r' < r + rows.length) && decide (colOffset x c' < 8) &&
        (rows.getD (rowOffset y r' - r) 0#8).getLsbD (7 - colOffset x c') &&
        !clipped edge x y (rowOffset y r') (colOffset x c'))) := by
  induction rows generalizing r acc with
  | nil => simp [drawRows, show ¬ (r ≤ rowOffset y r' ∧ rowOffset y r' < r) by omega]
  | cons row rows ih =>
    rw [List.length_cons] at hlen ⊢
    have hrow : r' = spriteRow y r ↔ r = rowOffset y r' := eq_spriteRow_iff (by omega)
    rw [drawRows, ih (by omega), drawBits_pixel (by decide), Bool.xor_assoc]
    simp only [hrow]
    congr 1
    rcases Nat.lt_trichotomy r (rowOffset y r') with hlt | rfl | hgt
    · rw [show rowOffset y r' - r = rowOffset y r' - (r + 1) + 1 by omega, List.getD_cons_succ]
      have hrange : (r + 1 ≤ rowOffset y r' ∧ rowOffset y r' < r + 1 + rows.length) ↔
          (r ≤ rowOffset y r' ∧ rowOffset y r' < r + (rows.length + 1)) := by omega
      simp only [hrange, hlt.ne, decide_false, Bool.false_and, Bool.false_xor]
    · simp
    · simp [show ¬ r = rowOffset y r' by omega, show ¬ r + 1 ≤ rowOffset y r' by omega, show ¬ r ≤ rowOffset y r' by omega]

/-- The engine's clipping at the offsets of a pixel is the edge test of `spriteLights`. -/
theorem not_clipped_offsets (r : Fin 32) (c : Fin 64) : (!clipped edge x y (rowOffset y r) (colOffset x c)) =
    (decide (edge = .wrap) ||
      decide (y.toNat % 32 + rowOffset y r < 32) && decide (x.toNat % 64 + colOffset x c < 64)) := by
  cases edge
  · rfl
  · simp [clipped, ← decide_not, Bool.and_comm]

theorem drawSprite_pixel {rows : List Byte} (hlen : rows.length ≤ 32) (d : Display) (r : Fin 32) (c : Fin 64) :
    (drawSprite edge x y rows d).1.pixel r c =
      (d.pixel r c ^^ spriteLights edge x y rows.length (fun k => rows.getD k 0#8) r c) := by
  have hpixel := drawRows_pixel (edge := edge) (x := x) (y := y) (rows := rows) (r := 0) (by omega) (d, false) r c
  simp only [not_clipped_offsets, Nat.zero_le, true_and, Nat.zero_add, Nat.sub_zero] at hpixel
  exact hpixel

/-- Drawing a sprite again undoes it: each pixel meets the same bit twice. -/
theorem drawSprite_drawSprite {rows : List Byte} (hlen : rows.length ≤ 32) (d : Display) :
    (drawSprite edge x y rows (drawSprite edge x y rows d).1).1 = d := by
  refine Display.ext_pixel fun r c => ?_
  rw [drawSprite_pixel hlen, drawSprite_pixel hlen, Bool.xor_assoc, Bool.xor_self, Bool.xor_false]

/-- `spriteLights` looks at the sprite's own rows alone. -/
theorem spriteLights_congr {h : Nat} {rows rows' : Nat → Byte} (hrows : ∀ k < h, rows k = rows' k) (r : Fin 32)
    (c : Fin 64) : spriteLights edge x y h rows r c = spriteLights edge x y h rows' r c := by
  by_cases hr : rowOffset y r < h
  · have hrow : rows ((r.val + 256 - y.toNat) % 32) = rows' ((r.val + 256 - y.toNat) % 32) := hrows _ hr
    simp only [spriteLights, hrow]
  · have hout : ¬ (r.val + 256 - y.toNat) % 32 < h := hr
    simp only [spriteLights, hout, decide_false, Bool.false_and]

end engine

/-- Settles O42, by the closed form of the loops. -/
theorem spriteXorsEachPixel : Obligations.SpriteXorsEachPixel := fun _ _ _ _ d r c hlen =>
  drawSprite_pixel (Nat.le_trans hlen (by decide)) d r c

/-- Settles O44: the second draw undoes the first, so what it turns off is what the first turned on. -/
theorem drawingTwiceRestoresTheDisplay : Obligations.DrawingTwiceRestoresTheDisplay := by
  intro edge x y rows d hlen once
  have hlen32 : rows.length ≤ 32 := Nat.le_trans hlen (by decide)
  have hback : (drawSprite edge x y rows once).1 = d := drawSprite_drawSprite hlen32 d
  have hflag : (drawSprite edge x y rows once).2 = true ↔
      ∃ r c, once.pixel r c = true ∧ (drawSprite edge x y rows once).1.pixel r c = false :=
    drawSprite_collision hlen32
  rw [hback] at hflag
  exact ⟨hback, hflag.trans (exists₂_congr fun _ _ => and_comm)⟩

/-- Every pixel after DRW's draw (R285). -/
theorem drawnSprite_pixel (x y : RegIdx) (n : Nibble) (s : State) (r : Fin 32) (c : Fin 64) :
    (drawnSprite x y n s).1.pixel r c = (s.disp.pixel r c ^^
      spriteLights s.params.drawEdge (s.readV x) (s.readV y) n.toNat (fun k => s.mem.read (s.base + k)) r c) := by
  have hlen := s.mem.readList_length s.base n.toNat
  have hn := n.isLt
  rw [drawnSprite, drawSprite_pixel (by omega), hlen, spriteLights_congr fun k hk => Memory.readList_getD s.mem hk]

/-- DRW's flag (R284, R285). -/
theorem drawnSprite_collision (x y : RegIdx) (n : Nibble) (s : State) : (drawnSprite x y n s).2 = true ↔
    ∃ r c, s.disp.pixel r c = true ∧ (drawnSprite x y n s).1.pixel r c = false := by
  have hlen := s.mem.readList_length s.base n.toNat
  have hn := n.isLt
  exact drawSprite_collision (by omega)

/-- Settles O45: the drawn display and then the flag, or the range check fails. -/
theorem drwDrawsAndSetsVf : Obligations.DrwDrawsAndSetsVf := by
  refine fun s x y n hi => ⟨fun hfit => ?draws, fun hn hover => ?halts⟩
  case draws =>
    have hfit' : n.toNat = 0 ∨ s.base + n.toNat ≤ 4096 := hfit.imp_left (congrArg BitVec.toNat)
    have hflag := drawnSprite_collision x y n s
    refine ⟨_, exec_drw_of_fits hfit' x y, drawnSprite_pixel x y n s, fun h => ?_, fun h => ?_,
      State.onlyRegs_writeV (s.setDisp _) vf _, (s.onlyChanges_setDisp _).trans (State.onlyChanges_writeFlag _ _)⟩
    · rw [State.readV_writeFlag_vf, hflag.mpr h]; rfl
    · rw [State.readV_writeFlag_vf, Bool.eq_false_iff.mpr (mt hflag.mp h)]; rfl
  case halts =>
    have hn' : n.toNat ≠ 0 := fun h => hn (BitVec.eq_of_toNat_eq h)
    simp only [exec, execDrw, checkSprite, if_neg hn']
    exact complete_checkRange_error hi hover _

end Sys2Proof.Machine
end

section
/-! Who changes what (10_state.md R22, R23, R34; 70_reset_and_hazards.md R391): a register changes only by an instruction that may
write it or by the notification it waits for, the keys only by `set_keys`, and the parameters never. -/

namespace Sys2Proof.Machine

theorem OnlyRegs.eq_of_ne {xs : List RegIdx} {s t : State} (h : OnlyRegs xs s t) {r : RegIdx}
    (hne : t.readV r ≠ s.readV r) : r ∈ xs := by
  by_contra hr
  exact hne (h r hr)

/-- A logic operation changes a register other than its destination only by clearing VF, under LOGIC_VF = Zero. -/
theorem State.writeLogic_changed {s : State} {x r : RegIdx} {b : Byte} (h : (s.writeLogic x b).readV r ≠ s.readV r) :
    r = x ∨ s.params.logicVf = .zero ∧ r = vf := by
  by_contra hno
  rw [not_or] at hno
  exact h (by rw [State.readV_writeLogic, if_neg hno.2, if_neg (Ne.symm hno.1)])

/-- An execute rule that checks and then changes the state answers the changed state or one with the registers as before. -/
theorem readV_of_complete_check {s t u : State} {c : Except CoreError Unit} {r : RegIdx}
    (h : complete s (c.map fun _ => t) = .next u) (hne : u.readV r ≠ s.readV r) : u = t := by
  cases c with
  | ok a => cases h; rfl
  | error e => cases h; exact absurd rfl hne

/-- The registers an instruction changes are among those it may write (R22, R23). -/
theorem mayWrite_of_exec {i : Instr} {s t : State} {r : RegIdx} (h : exec i s = .next t)
    (hne : t.readV r ≠ s.readV r) : MayWrite s.params r i := by
  have hwrites : .v ∈ i.writes := by
    by_contra hv
    exact hne (State.readV_congr (exec_same_of_not_mem_writes h hv (by decide)) r)
  cases i
  case ldImm | addImm | ldReg | ldVxDt =>
    cases h; exact List.mem_singleton.mp ((s.onlyRegs_writeV _ _).eq_of_ne hne)
  case rnd x nn =>
    cases h; exact List.mem_singleton.mp ((s.onlyRegs_writeV x _).eq_of_ne hne)
  case orReg | andReg | xorReg => cases h; exact State.writeLogic_changed hne
  case addReg | sub | subn | shr | shl =>
    cases h; exact List.mem_pair.mp ((s.onlyRegs_writeResult _ _).eq_of_ne hne)
  case drw x y n =>
    obtain rfl := readV_of_complete_check h hne
    exact List.mem_singleton.mp ((State.onlyRegs_writeV (s.setDisp _) vf _).eq_of_ne hne)
  case ldVxMem x =>
    obtain rfl := readV_of_complete_check h hne
    rw [State.readV_incrementI, readV_loadRegs] at hne
    by_contra hr
    exact hne (if_neg hr)
  all_goals simp [Instr.writes] at hwrites

/-- A notification changes the register that waits alone, and only on a Running core (R289). -/
theorem notifyKey_changed {s : State} {k : Nibble} {r : RegIdx} (hne : (notifyKey k s).readV r ≠ s.readV r) :
    s.run = .running ∧ s.wait = some r := by
  unfold notifyKey at hne
  split at hne
  next x hr hw =>
    have hv : ((s.writeV x (k.setWidth 8)).setWait none).resumePc.readV r = (s.writeV x (k.setWidth 8)).readV r :=
      State.readV_congr (State.onlyChanges_resumePc ((s.writeV x (k.setWidth 8)).setWait none) .v (by decide)) r
    rw [hv] at hne
    rw [List.mem_singleton.mp ((s.onlyRegs_writeV x _).eq_of_ne hne)]
    exact ⟨hr, hw⟩
  next => exact absurd rfl hne

/-- A step that changes a register executed an instruction that may write it. -/
theorem mayWrite_of_step {s t : State} {r : RegIdx} (h : step s = .next t) (hne : t.readV r ≠ s.readV r) :
    s.Ready ∧ ∃ w i, fetch s = .ok w ∧ decode w = .ok i ∧ MayWrite s.params r i := by
  rcases step_cases h with ⟨-, -, rfl⟩ | ⟨-, -, -, rfl⟩ | ⟨-, e, -, rfl⟩ | ⟨-, w, r', -, -, rfl⟩ |
    ⟨hready, w, i, hf, hd, hx⟩
  · exact absurd rfl hne
  · exact absurd rfl hne
  · exact absurd rfl hne
  · exact absurd rfl hne
  · exact ⟨hready, w, i, hf, hd, mayWrite_of_exec (s := s.advance) hx hne⟩

/-- Settles O59: of the transactions, a step and a notification alone write registers. -/
theorem registersChangeOnlyByTheirWriters : Obligations.RegistersChangeOnlyByTheirWriters := by
  refine ⟨fun i s t r => mayWrite_of_exec, fun tr s u a r h hne => ?_⟩
  cases tr
  case step => exact .inl ⟨rfl, mayWrite_of_step (transact_step_eq_next_iff.mp h).1 hne⟩
  case notifyKey k =>
    cases h
    obtain ⟨hr, hw⟩ := notifyKey_changed hne
    exact .inr ⟨hr, hw, k, rfl⟩
  case timerTick | setKeys | readDisplay | readRow | readSound | readState => cases h; exact absurd rfl hne
  case write bytes offset =>
    exact absurd (State.readV_congr (transact_write_onlyChanges h .v (by decide)) r) hne

theorem params_not_mem_writes (i : Instr) : .params ∉ i.writes := by
  cases i <;> simp [Instr.writes]

theorem keys_not_mem_writes (i : Instr) : .keys ∉ i.writes := by
  cases i <;> simp [Instr.writes]

/-- A component that no instruction writes is the same after every step. -/
theorem step_same {s t : State} {c : Component} (h : step s = .next t) (hc : ∀ i : Instr, c ∉ i.writes)
    (hpc : c ≠ .pc) (hrun : c ≠ .run) : Component.Same s t c := by
  by_contra hne
  obtain ⟨w, i, -, -, -, hx⟩ := exec_of_step_not_same h hpc hrun hne
  have hadv : Component.Same s s.advance c := s.onlyChanges_advance c (List.mem_singleton.not.mpr hpc)
  exact hne (hadv.trans (exec_same_of_not_mem_writes hx (hc i) hrun))

theorem keys_mem_footprint {i : Instr} : .keys ∈ i.footprint ↔ ∃ x, i = .skp x ∨ i = .sknp x := by
  cases i <;> simp [Instr.footprint]

theorem transact_params {tr : Transaction} {s u : State} {a : Response} (h : transact tr s = .next (a, u)) :
    u.params = s.params := by
  cases tr
  case step =>
    exact step_same (c := .params) (transact_step_eq_next_iff.mp h).1 params_not_mem_writes (by decide) (by decide)
  case write => exact transact_write_onlyChanges h .params (by decide)
  case notifyKey k => cases h; exact notifyKey_onlyChanges k s .params (by decide)
  case timerTick | setKeys | readDisplay | readRow | readSound | readState => cases h; rfl

/-- Every transaction but `set_keys` leaves the keys alone (R34). -/
theorem transact_keys {tr : Transaction} {s u : State} {a : Response} (h : transact tr s = .next (a, u))
    (hset : ∀ ks, tr ≠ .setKeys ks) : u.keys = s.keys := by
  cases tr
  case step => exact step_same (c := .keys) (transact_step_eq_next_iff.mp h).1 keys_not_mem_writes (by decide) (by decide)
  case setKeys ks => exact absurd rfl (hset ks)
  case write => exact transact_write_onlyChanges h .keys (by decide)
  case notifyKey k => cases h; exact notifyKey_onlyChanges k s .keys (by decide)
  case timerTick | readDisplay | readRow | readSound | readState => cases h; rfl

/-- Settles O60: no instruction writes the keys or the parameters, and the keys are in the footprint of SKP and SKNP only. -/
theorem keysAndParametersStandStill : Obligations.KeysAndParametersStandStill := by
  refine ⟨fun tr s u a h => ⟨transact_params h, fun hne => ?_⟩, fun i s ks hi => ?_⟩
  · by_contra hset
    exact hne (transact_keys h (not_exists.mp hset))
  · have hkeys : .keys ∉ i.footprint := by simp [keys_mem_footprint, fun x => (hi x).1, fun x => (hi x).2]
    exact exec_replaceFrom hkeys (s.setKeys ks) s

end Sys2Proof.Machine
end
